-- ==== Sys2Proof/Word.lean ====
section
/-! DEFINITION. The widths of the block's words (00_scope.md rule R9) and its digit values. -/

namespace Sys2Proof

/-- An 8-bit character code (R9 `CW`, R12). -/
abbrev Character := BitVec 8

/-- One byte of a binary block. -/
abbrev Byte := BitVec 8

/-- The block value V, 32 bits (R9 `VW`). -/
abbrev BlockValue := BitVec 32

/-- A command word, 42 bits (R9 `CMDW`, R60). -/
abbrev CommandWord := BitVec 42

/-- The payload `din` of a command, 40 bits (R60). -/
abbrev Payload := BitVec 40

/-- The contents of RESULT, 40 bits (R9 `RW`, R24). -/
abbrev ResultWord := BitVec 40

/-- The contents of STATUS, 8 bits (R25). -/
abbrev StatusByte := BitVec 8

/-- The index of a SYM command, 7 bits (R66). -/
abbrev SymbolIndex := BitVec 7

/-- A digit value, 0..84: R9 `NSYM` = 85, and its 7-bit form has width `DW` = 7. -/
abbrev Digit := Fin 85

end Sys2Proof
end

