-- ==== Sys2Proof/Syntax.lean ====
section
/-! DEFINITION. The instructions of the block: one constructor per row of spec/opcode_table.json. -/

namespace Sys2Proof

/-- A command with its operands (30_encoding.md R69). An operand has the width the encoding gives it, so
every term is a command the block accepts. -/
inductive Instr where
  /-- ENC4 (R90): encode the 4-byte block `v`. -/
  | enc4 (v : BlockValue)
  /-- DEC5 (R100): decode five characters, `c0` leftmost. -/
  | dec5 (c0 c1 c2 c3 c4 : Character)
  /-- CHK (R80): look up the character `c` in DMAP. -/
  | chk (c : Character)
  /-- SYM (R81): look up the index `i` in ALPHABET. -/
  | sym (i : SymbolIndex)
  deriving DecidableEq, Repr

/-- The row of the opcode table an instruction belongs to. -/
inductive Operation where
  | enc4 | dec5 | chk | sym
  deriving DecidableEq, Repr

/-- The operation of an instruction. -/
def Instr.operation : Instr → Operation
  | .enc4 _ => .enc4
  | .dec5 _ _ _ _ _ => .dec5
  | .chk _ => .chk
  | .sym _ => .sym

end Sys2Proof
end

