-- ==== Sys2Proof/WellFormed.lean ====
section
/-! DEFINITION. Which commands are well formed. Every `Instr` is (30_encoding.md R69); a command as a
programmer writes it (R70) is well formed when its numbers fit their fields. -/

namespace Sys2Proof

/-- Every instruction is well formed: no encoding is reserved or illegal (R69), and the operands' types
hold the field widths of R63 to R66 (log entry 17). -/
def Instr.wellFormed : Instr → Bool
  | .enc4 _ => true
  | .dec5 _ _ _ _ _ => true
  | .chk _ => true
  | .sym _ => true

/-- The forms in which one command is written (30_encoding.md R70), with the numbers as written. -/
inductive WrittenCommand where
  /-- `ENC4 0xHHHHHHHH` -/
  | enc4Word (v : Nat)
  /-- `ENC4 b0, b1, b2, b3` -/
  | enc4Bytes (b0 b1 b2 b3 : Nat)
  /-- `DEC5 "c0c1c2c3c4"`, the codes of the characters between the quotes -/
  | dec5Text (codes : List Nat)
  /-- `DEC5 0xHHHHHHHHHH` -/
  | dec5Word (din : Nat)
  /-- `CHK 'c'` or `CHK 0xHH` -/
  | chk (c : Nat)
  /-- `SYM n` -/
  | sym (n : Nat)
  deriving DecidableEq, Repr

/-- The numbers of a written command fit: 8 hex digits for V, 2 for a byte or a character, 10 for a
payload, exactly five characters between the quotes, and 0..127 for an index (R70). -/
def WrittenCommand.wellFormed : WrittenCommand → Bool
  | .enc4Word v => decide (v < 2 ^ 32)
  | .enc4Bytes b0 b1 b2 b3 => [b0, b1, b2, b3].all fun b => decide (b < 2 ^ 8)
  | .dec5Text codes => decide (codes.length = 5) && codes.all fun c => decide (c < 2 ^ 8)
  | .dec5Word din => decide (din < 2 ^ 40)
  | .chk c => decide (c < 2 ^ 8)
  | .sym n => decide (n ≤ 127)

end Sys2Proof
end

