-- ==== Sys2Proof/Decode.lean ====
section
/-! DEFINITION. The decoder and the encoder of command words (30_encoding.md). -/

namespace Sys2Proof

/-- The field `op = cmd[41:40]` (R60). -/
def opField (cmd : CommandWord) : BitVec 2 := cmd.extractLsb' 40 2

/-- The field `din = cmd[39:0]` (R60). -/
def dinField (cmd : CommandWord) : Payload := cmd.extractLsb' 0 40

/-- Character position `p` of a payload or of a RESULT, `w[39−8p : 32−8p]` (R64, R67). -/
def characterAt (w : BitVec 40) (p : Nat) : Character := w.extractLsb' (32 - 8 * p) 8

/-- Which operation the field `op` selects (R62). -/
def operationOf (op : BitVec 2) : Operation :=
  if op = 0b00#2 then .enc4
  else if op = 0b01#2 then .dec5
  else if op = 0b10#2 then .chk
  else .sym

/-- The code of an operation in the field `op` (R62). -/
def Operation.code : Operation → BitVec 2
  | .enc4 => 0b00#2
  | .dec5 => 0b01#2
  | .chk => 0b10#2
  | .sym => 0b11#2

/-- The decoder of R69. It is total: every 42-bit word is a command. -/
def decode (cmd : CommandWord) : Instr :=
  match operationOf (opField cmd) with
  | .enc4 => .enc4 ((dinField cmd).extractLsb' 0 32)
  | .dec5 =>
    .dec5 (characterAt (dinField cmd) 0) (characterAt (dinField cmd) 1) (characterAt (dinField cmd) 2)
      (characterAt (dinField cmd) 3) (characterAt (dinField cmd) 4)
  | .chk => .chk ((dinField cmd).extractLsb' 0 8)
  | .sym => .sym ((dinField cmd).extractLsb' 0 7)

/-- Five characters as one 40-bit field, the first in the highest 8 bits (R64, R67; 20_memory.md R45). -/
def packCharacters (c0 c1 c2 c3 c4 : Character) : BitVec 40 := c0 ++ c1 ++ c2 ++ c3 ++ c4

/-- The payload an assembler writes: 0 in every ignored bit (R70). -/
def payloadOf : Instr → Payload
  | .enc4 v => v.setWidth 40
  | .dec5 c0 c1 c2 c3 c4 => packCharacters c0 c1 c2 c3 c4
  | .chk c => c.setWidth 40
  | .sym i => i.setWidth 40

/-- The command word of an instruction (R60, R62, R70). -/
def encode (i : Instr) : CommandWord := i.operation.code ++ payloadOf i

/-- Why a number is not a command word. -/
inductive DecodeRefusal where
  /-- A command is one 42-bit word (R60), written with `cmd[43:42]` = 0 (R70). -/
  | widerThan42Bits
  deriving DecidableEq, Repr

/-- The command word that a number is. -/
def commandWordOf (w : Nat) : Except DecodeRefusal CommandWord :=
  if w < 2 ^ 42 then .ok (BitVec.ofNat 42 w) else .error .widerThan42Bits

/-- Decoding a number: total, and refusing by name what is no command word. -/
def decodeNumber (w : Nat) : Except DecodeRefusal Instr :=
  match commandWordOf w with
  | .ok cmd => .ok (decode cmd)
  | .error e => .error e

/-- The host's entry: the instruction of the word `w`, bit 0 of `w` being `cmd[0]` (log entry 8). -/
def decodeTableWord (_nbits w : Nat) : Option Instr :=
  match decodeNumber w with
  | .ok i => some i
  | .error _ => none

end Sys2Proof
end

