-- ==== Sys2Proof/Machine/Rom.lean ====
section
/-! DEFINITION. The two ROMs: ALPHABET (10_state.md R31) and DMAP (R33). Nothing
writes them (20_memory.md R56), so they are constants (log entry 18). -/

namespace Sys2Proof.Machine

/-- ALPHABET[0..9], the digits (R31). -/
def alphabetDigits : List Character :=
  [0x30, 0x31, 0x32, 0x33, 0x34, 0x35, 0x36, 0x37, 0x38, 0x39]

/-- ALPHABET[10..35], the lowercase letters (R31). -/
def alphabetLower : List Character :=
  [0x61, 0x62, 0x63, 0x64, 0x65, 0x66, 0x67, 0x68, 0x69, 0x6A, 0x6B, 0x6C, 0x6D] ++
  [0x6E, 0x6F, 0x70, 0x71, 0x72, 0x73, 0x74, 0x75, 0x76, 0x77, 0x78, 0x79, 0x7A]

/-- ALPHABET[36..61], the uppercase letters (R31). -/
def alphabetUpper : List Character :=
  [0x41, 0x42, 0x43, 0x44, 0x45, 0x46, 0x47, 0x48, 0x49, 0x4A, 0x4B, 0x4C, 0x4D] ++
  [0x4E, 0x4F, 0x50, 0x51, 0x52, 0x53, 0x54, 0x55, 0x56, 0x57, 0x58, 0x59, 0x5A]

/-- ALPHABET[62..84], the punctuation `.-:+=^!/*?&<>()[]{}@%$#`. PRESUMED by the spec itself: general
knowledge alone (R31, G1; log entry 5). -/
def alphabetPunctuation : List Character :=
  [0x2E, 0x2D, 0x3A, 0x2B, 0x3D, 0x5E, 0x21, 0x2F, 0x2A, 0x3F, 0x26, 0x3C] ++
  [0x3E, 0x28, 0x29, 0x5B, 0x5D, 0x7B, 0x7D, 0x40, 0x25, 0x24, 0x23]

/-- ALPHABET, the whole ROM (R31). -/
def alphabet : List Character :=
  alphabetDigits ++ alphabetLower ++ alphabetUpper ++ alphabetPunctuation

/-- It has exactly 85 entries (R31, R32(a)). -/
theorem alphabet_length : alphabet.length = 85 := by decide

/-- `ALPHABET[d]` for a digit 0..84 (00_scope.md R13, 10_state.md R31). -/
def symbolAt (d : Digit) : Character := alphabet[d.val]'(by rw [alphabet_length]; exact d.isLt)

/-- `DMAP[c]`: the digit whose symbol is `c`, or `none` for the spec's INVALID (R33). -/
def dmap (c : Character) : Option Digit :=
  (alphabet.finIdxOf? c).map (Fin.cast alphabet_length)

/-- A DMAP entry in 8 bits: `1 ++ i[6:0]`, or 0x00 for INVALID (R33). It is also what CHK returns (R80). -/
def dmapEntry (c : Character) : BitVec 8 :=
  match dmap c with
  | some d => 1#1 ++ BitVec.ofNat 7 d.val
  | none => 0x00#8

end Sys2Proof.Machine
end

