-- ==== Sys2Proof/Machine/Operands.lean ====
section
/-! DEFINITION. How operands are read as numbers and digits, and how results are laid out. -/

namespace Sys2Proof.Machine

/-- Four bytes read as one big-endian number, `b0` first (20_memory.md R41, 30_encoding.md R63). -/
def blockOfBytes (b0 b1 b2 b3 : Byte) : BlockValue := b0 ++ b1 ++ b2 ++ b3

/-- Byte `k` of a decoded block in RESULT, byte 0 = `RESULT[31:24]` (20_memory.md R43, R105, R67). -/
def resultByte (r : ResultWord) (k : Nat) : Byte := r.extractLsb' (24 - 8 * k) 8

/-- `digit_k = (V div 85^k) mod 85` (41_block_encoder.md R90). -/
def digit (v : BlockValue) (k : Nat) : Digit := ⟨v.toNat / 85 ^ k % 85, Nat.mod_lt _ (by decide)⟩

/-- The five characters of V, most significant digit first: `ch_p = ALPHABET[digit_(4−p)]` (R90). -/
def encodedBlock (v : BlockValue) : ResultWord :=
  packCharacters (symbolAt (digit v 4)) (symbolAt (digit v 3)) (symbolAt (digit v 2))
    (symbolAt (digit v 1)) (symbolAt (digit v 0))

/-- DMAP of every character, leftmost first; `.error p` when the character at position `p` is the leftmost
one that is not in the alphabet (42_block_decoder.md R101). `pos` is the position of the first character. -/
def readDigits (pos : Nat) : List Character → Except Nat (List Digit)
  | [] => .ok []
  | c :: cs =>
    match dmap c with
    | none => .error pos
    | some d =>
      match readDigits (pos + 1) cs with
      | .error p => .error p
      | .ok ds => .ok (d :: ds)

/-- The Horner sum of digits, `acc ← acc * 85 + d` from 0 (R100, R102), exact on natural numbers (log
entry 11). -/
def horner (ds : List Digit) : Nat := ds.foldl (fun acc d => acc * 85 + d.val) 0

end Sys2Proof.Machine
end

