-- ==== Sys2Proof/Machine/Flags.lean ====
section
/-! DEFINITION. The fields of STATUS, its only flags (10_state.md R25 to R30, R37). -/

namespace Sys2Proof.Machine

/-- The causes of `STATUS.CAUSE` (R28). -/
inductive Cause where
  | none
  | invalidChar
  | overflow
  | range
  deriving DecidableEq, Repr

/-- The code of a cause (R28). -/
def Cause.code : Cause → BitVec 2
  | .none => 0
  | .invalidChar => 1
  | .overflow => 2
  | .range => 3

/-- `status(err, cause, pos)`, the byte `0 ++ pos[2:0] ++ cause[1:0] ++ err ++ 1` (00_scope.md R13, R25). -/
def statusByte (err : Bool) (cause : Cause) (pos : BitVec 3) : StatusByte :=
  0#1 ++ pos ++ cause.code ++ BitVec.ofBool err ++ 1#1

/-- `STATUS.DONE`, bit 0 (R25, R26). -/
def statusDone (b : StatusByte) : Bool := b.getLsbD 0

/-- `STATUS.ERR`, bit 1 (R25, R27). -/
def statusErr (b : StatusByte) : Bool := b.getLsbD 1

/-- `STATUS.CAUSE`, bits 3:2 (R25, R28). -/
def statusCause (b : StatusByte) : BitVec 2 := b.extractLsb' 2 2

/-- `STATUS.EPOS`, bits 6:4 (R25, R29). -/
def statusEpos (b : StatusByte) : BitVec 3 := b.extractLsb' 4 3

/-- What a read of STATUS returns: bit 7 is hard-wired to 0 (R30; log entry 10). -/
def hardwiredStatus (b : StatusByte) : StatusByte := 0#1 ++ b.extractLsb' 0 7

end Sys2Proof.Machine
end

