-- ==== Sys2Proof/Config.lean ====
section
/-! DEFINITION. What a build fixes (OVERFLOW_POLICY) and the host's free values (message texts). -/

namespace Sys2Proof

/-- `OVERFLOW_POLICY` (00_scope.md R8): how DEC5 treats a group whose value exceeds 2^32−1. -/
inductive OverflowPolicy where
  | reject   -- R103
  | wrap     -- R104
  deriving DecidableEq, Repr

/-- What is fixed when a block is built (00_scope.md R8; 10_state.md R39: configuration and not state). -/
structure Config where
  overflowPolicy : OverflowPolicy
  deriving DecidableEq, Repr

/-- "The default is `REJECT`" (00_scope.md R8). -/
def Config.default : Config := { overflowPolicy := .reject }

/-- Why a host procedure fails. It selects a message text and is not part of the error, which has one
kind (45_host_procedures.md R124). -/
inductive HostFailure where
  | wideCharacter   -- a code unit above 0xFF (R122, first line)
  | misaligned      -- a length that is no multiple of 5 (R122, second line)
  | uuidLength      -- a length that is not 20 (R126)
  | blockError      -- a DEC5 response with ERR = 1 (R122)
  | outOfBounds     -- more bytes asked for than decoded (R123)
  deriving DecidableEq, Repr

/-- The message of an InvalidInput error (R124). -/
inductive HostMessage where
  /-- A text that contains the phrase "Input is not valid Z85", with something before and after it. -/
  | notValidZ85 (before after : String)
  /-- A text that names the alignment: open to an alignment failure only. -/
  | namesAlignment (text : String)
  deriving DecidableEq, Repr

/-- The phrase of R124. -/
def HostMessage.phrase : String := "Input is not valid Z85"

/-- The whole text of a message. -/
def HostMessage.text : HostMessage → String
  | .notValidZ85 before after => before ++ HostMessage.phrase ++ after
  | .namesAlignment t => t

/-- FREE VALUE (93_implementation_defined.md U3; log entry 12): what stands before the phrase. -/
opaque Config.messageBefore : HostFailure → List Nat → String

/-- FREE VALUE (U3; log entry 12): what stands after the phrase. -/
opaque Config.messageAfter : HostFailure → List Nat → String

/-- FREE VALUE (U3, R124; log entry 12): the alignment-specific text of an alignment failure, where the
host uses one in place of the phrase. -/
opaque Config.alignmentText : List Nat → Option String

end Sys2Proof
end

