-- ==== Sys2Proof/Machine/State.lean ====
section
/-! DEFINITION. The state of one block and of the host's side of its interface, and the state after reset. -/

namespace Sys2Proof.Machine

/-- What the host can do to the block (10_state.md R20, R21; 70_reset_and_hazards.md R160). -/
inductive HostAction where
  /-- Issue one command word (R23, 30_encoding.md R60). -/
  | issue (cmd : CommandWord)
  /-- Reset the block: a step of its own, between operations (R160, R161). -/
  | reset
  /-- Read RESULT (R24). -/
  | readResult
  /-- Read STATUS (R25). -/
  | readStatus
  deriving DecidableEq, Repr

/-- One value the host has read. -/
inductive Reading where
  | result (v : ResultWord)
  | status (b : StatusByte)
  deriving DecidableEq, Repr

/-- The state. `result` and `status` are the block's registers (10_state.md R24, R25) and `config` is how
the block was built (R39). `port` and `readings` are the host's side, the model's own fields. -/
structure State where
  /-- OVERFLOW_POLICY, fixed when the block is built (00_scope.md R8; log entry 3). -/
  config : Config
  /-- RESULT; `none` is the spec's "no value" (R24, R38; log entry 4). -/
  result : Option ResultWord
  /-- STATUS (R25). -/
  status : StatusByte
  /-- The host's actions the block has not taken yet, oldest first (R23; log entry 1). -/
  port : List HostAction
  /-- What the host has read, oldest first (log entry 2). -/
  readings : List Reading
  deriving DecidableEq, Repr

/-- The faults of the model. -/
inductive Fault where
  /-- Raised by the host's read of RESULT while RESULT holds no value (60_exceptions.md R142): the block's
  one model fault. Safe: a build may return some value there (92_eei_decisions.md D13). -/
  | resultHoldsNoValue
  deriving DecidableEq, Repr

/-- The refusals of the model. -/
inductive Refusal where
  /-- Raised by an arm of `exec` whose instruction has no meaning yet; no arm is such an arm. Safe. -/
  | notModelled (mnemonic : String)
  deriving DecidableEq, Repr

/-- The outcome of one step. -/
abbrev StepOutcome := Host.Outcome State Fault Refusal

/-- A block built with the configuration `c`, right after reset (10_state.md R38): STATUS is 0x00 and
RESULT holds no value. The host has done nothing. -/
def State.resetWith (c : Config) : State :=
  { config := c, result := none, status := 0x00#8, port := [], readings := [] }

/-- The machine right after reset, built with the default policy (00_scope.md R8). -/
def State.reset : State := State.resetWith Config.default

end Sys2Proof.Machine
end

