-- ==== Sys2Proof/Machine/Ops.lean ====
section
/-! DEFINITION. The shared operations: ending an operation (00_scope.md R13), reset, and the host's reads.
The block takes no exception and returns from none (60_exceptions.md R145, R146): `raiseInvalidInput` is
all that an error does. -/

namespace Sys2Proof.Machine

/-- `complete(v)`: end the operation with success (00_scope.md R13). -/
def State.complete (s : State) (v : ResultWord) : State :=
  { s with result := some v, status := statusByte false .none 0 }

/-- `raise InvalidInput(cause, pos)`: end the operation with an error (60_exceptions.md R140). -/
def State.raiseInvalidInput (s : State) (cause : Cause) (pos : BitVec 3) : State :=
  { s with result := some 0, status := statusByte true cause pos }

/-- Reset (70_reset_and_hazards.md R160): STATUS is 0x00 and RESULT holds no value. The configuration is
unchanged, and so is what belongs to the host (log entry 9). -/
def State.applyReset (s : State) : State :=
  { s with result := none, status := 0x00#8 }

/-- The host's read of RESULT (10_state.md R24). While RESULT holds no value it faults, as the spec says
(60_exceptions.md R142, 10_state.md R38, 92_eei_decisions.md D13, 93_implementation_defined.md U2). -/
def State.readResult (s : State) : Except Fault ResultWord :=
  match s.result with
  | some v => .ok v
  | none => .error .resultHoldsNoValue

/-- The host's read of STATUS (10_state.md R25, R30). -/
def State.readStatus (s : State) : StatusByte := hardwiredStatus s.status

/-- The host notes a value it has read (log entry 2). -/
def State.note (s : State) (r : Reading) : State := { s with readings := s.readings ++ [r] }

/-- The host puts an action before every other one of the port: the block takes it next. -/
def State.present (s : State) (a : HostAction) : State := { s with port := a :: s.port }

/-- The step in which the host reads RESULT. -/
def State.takeReadResult (s : State) : StepOutcome :=
  match s.readResult with
  | .ok v => .next (s.note (.result v))
  | .error f => .fault f

/-- The step in which the host reads STATUS. -/
def State.takeReadStatus (s : State) : StepOutcome := .next (s.note (.status s.readStatus))

end Sys2Proof.Machine
end

