-- ==== Sys2Proof/Machine/Decoder.lean ====
section
/-! DEFINITION. The block decoder (42_block_decoder.md). -/

namespace Sys2Proof.Machine

/-- The end of DEC5 once the five digits have the value `acc` (R103 to R105). -/
def State.finishDec5 (s : State) (acc : Nat) : State :=
  if acc > 0xFFFFFFFF then
    match s.config.overflowPolicy with
    | .reject => s.raiseInvalidInput .overflow 0
    | .wrap => s.complete (BitVec.ofNat 40 (acc % 2 ^ 32))
  else s.complete (BitVec.ofNat 40 acc)

/-- DEC5 (R100): the validity of all five characters first (R101, R144), then the value. -/
def execDec5 (c0 c1 c2 c3 c4 : Character) (s : State) : StepOutcome :=
  match readDigits 0 [c0, c1, c2, c3, c4] with
  | .error p => .next (s.raiseInvalidInput .invalidChar (BitVec.ofNat 3 p))
  | .ok ds => .next (s.finishDec5 (horner ds))

end Sys2Proof.Machine
end

