-- ==== Sys2Proof/Machine/Encoder.lean ====
section
/-! DEFINITION. The block encoder (41_block_encoder.md). -/

namespace Sys2Proof.Machine

/-- ENC4 (R90): the five characters of `v`, and never an error. -/
def execEnc4 (v : BlockValue) (s : State) : StepOutcome := .next (s.complete (encodedBlock v))

end Sys2Proof.Machine
end

