-- ==== Sys2Proof/Machine/Lookup.lean ====
section
/-! DEFINITION. The alphabet lookups (40_alphabet_lookup.md). -/

namespace Sys2Proof.Machine

/-- CHK (R80): the DMAP entry of `c`, and never an error. -/
def execChk (c : Character) (s : State) : StepOutcome := .next (s.complete ((dmapEntry c).setWidth 40))

/-- SYM (R81): the symbol at the index `i`, or RANGE above 84. -/
def execSym (i : SymbolIndex) (s : State) : StepOutcome :=
  if h : i.toNat < 85 then .next (s.complete ((symbolAt ⟨i.toNat, h⟩).setWidth 40))
  else .next (s.raiseInvalidInput .range 0)

end Sys2Proof.Machine
end

