-- ==== Sys2Proof/Machine/Dispatch.lean ====
section
/-! DEFINITION. One arm per instruction: the meaning it has. -/

namespace Sys2Proof.Machine

/-- What one command does to the block (00_scope.md R14). -/
def exec (i : Instr) (s : State) : Host.Outcome State Fault Refusal :=
  match i with
  | .enc4 v => Sys2Proof.Machine.execEnc4 v s
  | .dec5 c0 c1 c2 c3 c4 => Sys2Proof.Machine.execDec5 c0 c1 c2 c3 c4 s
  | .chk c => Sys2Proof.Machine.execChk c s
  | .sym idx => Sys2Proof.Machine.execSym idx s

end Sys2Proof.Machine
end

