-- ==== Sys2Proof/Machine/Step.lean ====
section
/-! DEFINITION. One step: the block takes the host's oldest action. -/

namespace Sys2Proof.Machine

/-- One step. The block starts nothing by itself (10_state.md R20): with nothing in the port it is idle and
keeps RESULT and STATUS (60_exceptions.md R152; log entry 6). Otherwise the oldest action is taken, whole,
before the next one (20_memory.md R49, R52). -/
def step (s : State) : Host.Outcome State Fault Refusal :=
  match s.port with
  | [] => .next s
  | .issue cmd :: rest => exec (decode cmd) { s with port := rest }
  | .reset :: rest => .next (State.applyReset { s with port := rest })
  | .readResult :: rest => State.takeReadResult { s with port := rest }
  | .readStatus :: rest => State.takeReadStatus { s with port := rest }

/-- The host issues the command word `w` next (log entry 7). What is no command word (30_encoding.md R60)
cannot be issued. -/
def State.withFetchWord (s : State) (_nbits w : Nat) : State :=
  match commandWordOf w with
  | .ok cmd => s.present (.issue cmd)
  | .error _ => s

end Sys2Proof.Machine
end

