-- ==== Sys2Proof/Machine/Assembler.lean ====
section
/-! DEFINITION. The assembler of 30_encoding.md R70: one command per line, `;` starts a comment. What R70
leaves open (blanks, the case of letters, which characters stand for themselves) is log entry 15. -/

namespace Sys2Proof.Machine

/-- The command of a well-formed written command, 0 in every ignored bit (R70). -/
def assembleWritten (w : WrittenCommand) : Option Instr :=
  if w.wellFormed then
    match w with
    | .enc4Word v => some (.enc4 (BitVec.ofNat 32 v))
    | .enc4Bytes b0 b1 b2 b3 =>
      some (.enc4 (BitVec.ofNat 8 b0 ++ BitVec.ofNat 8 b1 ++ BitVec.ofNat 8 b2 ++ BitVec.ofNat 8 b3))
    | .dec5Text [c0, c1, c2, c3, c4] =>
      some (.dec5 (BitVec.ofNat 8 c0) (BitVec.ofNat 8 c1) (BitVec.ofNat 8 c2) (BitVec.ofNat 8 c3)
        (BitVec.ofNat 8 c4))
    | .dec5Text _ => none
    | .dec5Word din =>
      some (.dec5 (characterAt (BitVec.ofNat 40 din) 0) (characterAt (BitVec.ofNat 40 din) 1)
        (characterAt (BitVec.ofNat 40 din) 2) (characterAt (BitVec.ofNat 40 din) 3)
        (characterAt (BitVec.ofNat 40 din) 4))
    | .chk c => some (.chk (BitVec.ofNat 8 c))
    | .sym n => some (.sym (BitVec.ofNat 7 n))
  else none

/-- Drop leading blanks (space or tab). -/
def skipBlanks : List Char → List Char
  | c :: cs => if c = ' ' ∨ c = '\t' then skipBlanks cs else c :: cs
  | [] => []

/-- What may stand after a command: blanks, then nothing or a comment. -/
def atLineEnd (line : List Char) : Bool :=
  match skipBlanks line with
  | [] => true
  | c :: _ => c = ';'

/-- The value of a hex digit, either case. -/
def hexDigitValue (c : Char) : Option Nat :=
  if '0' ≤ c ∧ c ≤ '9' then some (c.toNat - 48)
  else if 'A' ≤ c ∧ c ≤ 'F' then some (c.toNat - 55)
  else if 'a' ≤ c ∧ c ≤ 'f' then some (c.toNat - 87)
  else none

/-- Exactly `n` hex digits, after the value `acc`, and the rest of the line. -/
def hexDigits : Nat → Nat → List Char → Option (Nat × List Char)
  | 0, acc, line => some (acc, line)
  | n + 1, acc, c :: cs =>
    match hexDigitValue c with
    | some d => hexDigits n (acc * 16 + d) cs
    | none => none
  | _ + 1, _, [] => none

/-- `0x` and exactly `n` hex digits. -/
def hexNumber (n : Nat) : List Char → Option (Nat × List Char)
  | '0' :: 'x' :: cs => hexDigits n 0 cs
  | _ => none

/-- Decimal digits after the value `acc`, as many as there are, and the rest of the line. -/
def decimalDigits : Nat → List Char → Nat × List Char
  | acc, c :: cs => if '0' ≤ c ∧ c ≤ '9' then decimalDigits (acc * 10 + (c.toNat - 48)) cs else (acc, c :: cs)
  | acc, [] => (acc, [])

/-- A decimal number of one digit or more. -/
def decimalNumber : List Char → Option (Nat × List Char)
  | c :: cs => if '0' ≤ c ∧ c ≤ '9' then some (decimalDigits 0 (c :: cs)) else none
  | [] => none

/-- A character that stands for itself between quotes: printable ASCII. -/
def standsForItself (c : Char) : Bool := decide (0x20 ≤ c.toNat) && decide (c.toNat ≤ 0x7E)

/-- The characters between double quotes up to the closing one: `\xHH`, `\"` and `\\`, or itself (R70). -/
def quotedText : List Char → Option (List Nat × List Char)
  | '"' :: cs => some ([], cs)
  | '\\' :: 'x' :: a :: b :: cs =>
    match hexDigitValue a, hexDigitValue b, quotedText cs with
    | some h, some l, some (codes, rest) => some ((h * 16 + l) :: codes, rest)
    | _, _, _ => none
  | '\\' :: '"' :: cs =>
    match quotedText cs with
    | some (codes, rest) => some (0x22 :: codes, rest)
    | none => none
  | '\\' :: '\\' :: cs =>
    match quotedText cs with
    | some (codes, rest) => some (0x5C :: codes, rest)
    | none => none
  | c :: cs =>
    if standsForItself c && c != '\\' then
      match quotedText cs with
      | some (codes, rest) => some (c.toNat :: codes, rest)
      | none => none
    else none
  | [] => none

/-- A comma between two byte operands, blanks around it allowed. -/
def skipComma (line : List Char) : Option (List Char) :=
  match skipBlanks line with
  | ',' :: cs => some (skipBlanks cs)
  | _ => none

/-- The operands of ENC4: eight hex digits, or four bytes with commas (R70). -/
def enc4Operands (line : List Char) : Option (WrittenCommand × List Char) :=
  match hexNumber 8 line with
  | some (v, rest) => some (.enc4Word v, rest)
  | none => do
    let (b0, rest) ← hexNumber 2 line
    let (b1, rest) ← hexNumber 2 (← skipComma rest)
    let (b2, rest) ← hexNumber 2 (← skipComma rest)
    let (b3, rest) ← hexNumber 2 (← skipComma rest)
    some (.enc4Bytes b0 b1 b2 b3, rest)

/-- The operand of DEC5: quoted characters, or ten hex digits (R70). -/
def dec5Operand : List Char → Option (WrittenCommand × List Char)
  | '"' :: cs =>
    match quotedText cs with
    | some (codes, rest) => some (.dec5Text codes, rest)
    | none => none
  | line =>
    match hexNumber 10 line with
    | some (din, rest) => some (.dec5Word din, rest)
    | none => none

/-- The operand of CHK: one character between single quotes, or two hex digits (R70). -/
def chkOperand : List Char → Option (WrittenCommand × List Char)
  | '\'' :: c :: '\'' :: cs => if standsForItself c then some (.chk c.toNat, cs) else none
  | line =>
    match hexNumber 2 line with
    | some (c, rest) => some (.chk c, rest)
    | none => none

/-- The operand of SYM: a decimal number (R70). -/
def symOperand (line : List Char) : Option (WrittenCommand × List Char) :=
  match decimalNumber line with
  | some (n, rest) => some (.sym n, rest)
  | none => none

/-- The mnemonic, a blank, and the operands. -/
def writtenCommand : List Char → Option (WrittenCommand × List Char)
  | 'E' :: 'N' :: 'C' :: '4' :: ' ' :: cs => enc4Operands (skipBlanks cs)
  | 'D' :: 'E' :: 'C' :: '5' :: ' ' :: cs => dec5Operand (skipBlanks cs)
  | 'C' :: 'H' :: 'K' :: ' ' :: cs => chkOperand (skipBlanks cs)
  | 'S' :: 'Y' :: 'M' :: ' ' :: cs => symOperand (skipBlanks cs)
  | _ => none

/-- What one line of assembler text is. -/
inductive AssembledLine where
  /-- Blank, or a comment only. -/
  | empty
  /-- One command. -/
  | command (cmd : CommandWord)
  /-- Neither: not a form of R70, or a number that does not fit. -/
  | malformed
  deriving DecidableEq, Repr

/-- Assemble one line (R70). R70 is silent on a line that holds no command. The model's choice (log entry 15): a
line of blanks, of a comment, or of both is `.empty` and no error, and every other line that is no command is
`.malformed`. -/
def assembleLine (line : List Char) : AssembledLine :=
  if atLineEnd line then .empty
  else
    match writtenCommand (skipBlanks line) with
    | some (w, rest) =>
      match assembleWritten w with
      | some i => if atLineEnd rest then .command (encode i) else .malformed
      | none => .malformed
    | none => .malformed

/-- A hex digit, uppercase. -/
def hexDigit (n : Nat) : Char := if n < 10 then Char.ofNat (48 + n) else Char.ofNat (55 + n)

/-- The last `n` hex digits of a number, the most significant first. -/
def hexDigitsText : Nat → Nat → List Char
  | 0, _ => []
  | n + 1, v => hexDigit (v / 16 ^ n % 16) :: hexDigitsText n v

/-- `0x` and `n` hex digits (R70). -/
def hexText (n v : Nat) : List Char := '0' :: 'x' :: hexDigitsText n v

/-- A command word as R70 writes it: `0x` and the eleven hex digits of `cmd[43:0]`, `cmd[43:42]` = 0. -/
def commandText (cmd : CommandWord) : List Char := hexText 11 cmd.toNat

end Sys2Proof.Machine
end

