-- ==== Sys2Proof/Machine/Bank.lean ====
section
/-! DEFINITION. Several instances of the block (00_scope.md R10, 20_memory.md R53,
60_exceptions.md R150; log entry 14). -/

namespace Sys2Proof.Machine

/-- One step of an instance that has run to `o`; one that has stopped stays so. -/
def stepOutcome (o : StepOutcome) : StepOutcome :=
  match o with
  | .next s => step s
  | .fault f => .fault f
  | .refused r => .refused r

/-- `n` steps of one instance running alone. -/
def stepsAlone : Nat → StepOutcome → StepOutcome
  | 0, o => o
  | n + 1, o => stepsAlone n (stepOutcome o)

/-- Instance `k` of the bank steps, and no other. -/
def bankStep (bank : List StepOutcome) (k : Nat) : List StepOutcome := bank.modify k stepOutcome

/-- The instances step in the order the schedule gives: any interleaving (R53). -/
def bankRun (schedule : List Nat) (bank : List StepOutcome) : List StepOutcome := schedule.foldl bankStep bank

end Sys2Proof.Machine
end

