-- ==== Sys2Proof/Machine/HostProcedures.lean ====
section
/-! DEFINITION. The host procedures of 45_host_procedures.md: buffers, strings and UUIDs over block commands.
They bind the host and are no part of the block (00_scope.md R6; log entry 13). -/

namespace Sys2Proof.Machine

/-- A host string: its code units, which may exceed 8 bits (R122, 92_eei_decisions.md D5). -/
abbrev HostString := List Nat

/-- The single error kind of the host, with its message (R124). -/
structure InvalidInput where
  message : HostMessage
  deriving DecidableEq, Repr

/-- The response to a command: the pair (RESULT, STATUS) (30_encoding.md R61). -/
structure Response where
  result : ResultWord
  status : StatusByte
  deriving DecidableEq, Repr

/-- A running host procedure: the block it drives and the commands it has issued, oldest first (R120). -/
structure Session where
  block : State
  issued : List CommandWord
  deriving DecidableEq, Repr

/-- How a host procedure ends. -/
inductive HostResult (α : Type) where
  /-- It returns a value. -/
  | returns (value : α) (h : Session)
  /-- It fails and returns no output (R124). -/
  | fails (e : InvalidInput) (h : Session)
  /-- The block's step did not answer a next state, or a read faulted. -/
  | stops (r : Fault ⊕ Refusal)
  deriving DecidableEq, Repr

/-- One procedure after another. -/
def HostResult.bind {α β : Type} (x : HostResult α) (f : α → Session → HostResult β) : HostResult β :=
  match x with
  | .returns a h => f a h
  | .fails e h => .fails e h
  | .stops r => .stops r

/-- `issue(cmd)`: send one command and take the response it leaves, before any other (R120, 20_memory.md R52). -/
def issue (cmd : CommandWord) (h : Session) : HostResult Response :=
  match step (h.block.present (.issue cmd)) with
  | .next s =>
    match s.readResult with
    | .ok r => .returns { result := r, status := s.readStatus } { block := s, issued := h.issued ++ [cmd] }
    | .error f => .stops (.inl f)
  | .fault f => .stops (.inl f)
  | .refused r => .stops (.inr r)

/-- The message of a failure: it contains the phrase, or names the alignment where R124 allows that; the rest
of its text is free (93_implementation_defined.md U3; log entry 12). -/
def failureMessage (why : HostFailure) (str : HostString) : HostMessage :=
  match why, Config.alignmentText str with
  | .misaligned, some t => .namesAlignment t
  | _, _ => .notValidZ85 (Config.messageBefore why str) (Config.messageAfter why str)

/-- `fail InvalidInput(msg)` (R124). -/
def failWith {α : Type} (why : HostFailure) (str : HostString) (h : Session) : HostResult α :=
  .fails { message := failureMessage why str } h

/-- The five characters of a RESULT, as a host string (R121). -/
def resultCharacters (r : ResultWord) : HostString :=
  [(characterAt r 0).toNat, (characterAt r 1).toNat, (characterAt r 2).toNat, (characterAt r 3).toNat,
    (characterAt r 4).toNat]

/-- The four bytes of a RESULT (R122). -/
def resultBytes (r : ResultWord) : List Byte := [resultByte r 0, resultByte r 1, resultByte r 2, resultByte r 3]

/-- The command `ENC4 b0, b1, b2, b3` (R121). -/
def enc4Command (b0 b1 b2 b3 : Byte) : CommandWord := encode (.enc4 (blockOfBytes b0 b1 b2 b3))

/-- The command DEC5 of five code units, none of them above 0xFF (R122). -/
def dec5Command (c0 c1 c2 c3 c4 : Nat) : CommandWord :=
  encode (.dec5 (BitVec.ofNat 8 c0) (BitVec.ofNat 8 c1) (BitVec.ofNat 8 c2) (BitVec.ofNat 8 c3)
    (BitVec.ofNat 8 c4))

/-- Zero bytes on the right up to a multiple of 4 (R121). -/
def padded (b : List Byte) : List Byte := b ++ List.replicate ((4 - b.length % 4) % 4) 0x00#8

/-- The loop of ENCODE, one ENC4 per group of four bytes (R121). -/
def encodeGroups : List Byte → Session → HostResult HostString
  | b0 :: b1 :: b2 :: b3 :: rest, h =>
    (issue (enc4Command b0 b1 b2 b3) h).bind fun r h =>
      (encodeGroups rest h).bind fun str h => .returns (resultCharacters r.result ++ str) h
  | _, h => .returns [] h

/-- `ENCODE(B)` (R121). -/
def encodeBuffer (b : List Byte) (h : Session) : HostResult HostString :=
  if b.length = 0 then .returns [] h else encodeGroups (padded b) h

/-- The loop of DECODE, one DEC5 per group of five characters, ended by the first error (R122). `whole` is the
string the message is about. -/
def decodeGroups (whole : HostString) : HostString → Session → HostResult (List Byte)
  | c0 :: c1 :: c2 :: c3 :: c4 :: rest, h =>
    (issue (dec5Command c0 c1 c2 c3 c4) h).bind fun r h =>
      if statusErr r.status then failWith .blockError whole h
      else (decodeGroups whole rest h).bind fun out h => .returns (resultBytes r.result ++ out) h
  | _, h => .returns [] h

/-- `DECODE(S)`, aligned mode (R122). -/
def decodeString (str : HostString) (h : Session) : HostResult (List Byte) :=
  if str.any (fun c => decide (c > 0xFF)) then failWith .wideCharacter str h
  else if str.length % 5 ≠ 0 then failWith .misaligned str h
  else decodeGroups str str h

/-- `DECODE(S, n)`, length-targeted mode: the one algorithm and then the truncation (R123, R131). -/
def decodeStringTo (str : HostString) (n : Nat) (h : Session) : HostResult (List Byte) :=
  (decodeString str h).bind fun full h =>
    if n > full.length then failWith .outOfBounds str h else .returns (full.take n) h

/-- A UUID: two 64-bit big-endian integers (R125). -/
structure Uuid where
  msb : BitVec 64
  lsb : BitVec 64
  deriving DecidableEq, Repr

/-- The eight bytes of a 64-bit integer, most significant first (R125). -/
def bytesOfWord64 (w : BitVec 64) : List Byte :=
  [w.extractLsb' 56 8, w.extractLsb' 48 8, w.extractLsb' 40 8, w.extractLsb' 32 8, w.extractLsb' 24 8,
    w.extractLsb' 16 8, w.extractLsb' 8 8, w.extractLsb' 0 8]

/-- Bytes read as one big-endian 64-bit integer (R126). -/
def word64OfBytes (bs : List Byte) : BitVec 64 :=
  BitVec.ofNat 64 (bs.foldl (fun acc b => acc * 256 + b.toNat) 0)

/-- `UUID_ENCODED_LENGTH` = 20 (R127). -/
def uuidEncodedLength : Nat := 20

/-- `ENCODE_UUID(U)` (R125). -/
def encodeUuid (u : Uuid) (h : Session) : HostResult HostString :=
  encodeBuffer (bytesOfWord64 u.msb ++ bytesOfWord64 u.lsb) h

/-- `DECODE_UUID(S)` (R126). -/
def decodeUuid (str : HostString) (h : Session) : HostResult Uuid :=
  if str.length ≠ uuidEncodedLength then failWith .uuidLength str h
  else (decodeString str h).bind fun b h =>
    .returns { msb := word64OfBytes (b.take 8), lsb := word64OfBytes ((b.drop 8).take 8) } h

end Sys2Proof.Machine
end

