-- ==== Sys2Proof/Safety.lean ====
section
/-! DEFINITION. What the statements are said in: legal registers, runs, a host that keeps its duty, and
characters that need escaping. -/

namespace Sys2Proof.Machine

/-- `n` steps, stopping at the first fault. -/
def run : Nat → State → StepOutcome
  | 0, s => .next s
  | n + 1, s =>
    match step s with
    | .next t => run n t
    | .fault f => .fault f
    | .refused r => .refused r

/-- The legal values of STATUS (10_state.md R25, R27 to R30): bit 7 is 0, EPOS is at most 4, CAUSE is 0
exactly when ERR is 0, EPOS is 0 unless CAUSE is INVALID_CHAR, and ERR is 0 before any operation. -/
abbrev statusLegal (b : StatusByte) : Prop :=
  b.getLsbD 7 = false ∧ (statusEpos b).toNat ≤ 4 ∧ (statusCause b = 0#2 ↔ statusErr b = false) ∧
    (statusCause b ≠ Cause.invalidChar.code → statusEpos b = 0#3) ∧
    (statusDone b = false → statusErr b = false)

/-- What every step keeps of the two registers: STATUS is legal, RESULT holds a value exactly once an
operation has completed (R26, R38), and RESULT is 0 with ERR = 1 (60_exceptions.md R140). -/
abbrev State.Inv (s : State) : Prop :=
  statusLegal s.status ∧ (s.result.isSome = statusDone s.status) ∧
    (statusErr s.status = true → s.result = some 0)

/-- RESULT and STATUS are as reset leaves them, or they are the response of some command on a block built
with this configuration: a command that changes nothing when it runs again (20_memory.md R50). -/
abbrev State.HoldsAResponse (s : State) : Prop :=
  (s.result = none ∧ s.status = 0x00#8) ∨ ∃ i, exec i s = .next s

/-- The value of five digits, `d0` leftmost (42_block_decoder.md R102), written as the rule writes it. -/
def groupValue (d0 d1 d2 d3 d4 : Digit) : Nat :=
  d0.val * 85 ^ 4 + d1.val * 85 ^ 3 + d2.val * 85 ^ 2 + d3.val * 85 + d4.val

/-- DEC5 of the 40-bit payload `g` succeeds on the block `s` (42_block_decoder.md R108). -/
def DecodesWithoutError (s : State) (g : Payload) : Prop :=
  ∃ t, exec (decode (0b01#2 ++ g)) s = .next t ∧ statusErr t.status = false

/-- The host's duty of 70_reset_and_hazards.md R167, on the actions it still has: RESULT is read only when an
operation has completed since reset. `done` says whether one has. -/
def readsOnlyWhenDone : Bool → List HostAction → Bool
  | _, [] => true
  | _, .issue _ :: rest => readsOnlyWhenDone true rest
  | _, .reset :: rest => readsOnlyWhenDone false rest
  | done, .readResult :: rest => done && readsOnlyWhenDone done rest
  | done, .readStatus :: rest => readsOnlyWhenDone done rest

/-- A run that never stops: however many steps, there is a next state. -/
def RunsSafely (s : State) : Prop := ∀ n, ∃ t, run n s = .next t

/-- The host issues each command and reads RESULT and then STATUS before the next one (R165). -/
def issueAndRead (cmds : List CommandWord) : List HostAction :=
  cmds.flatMap fun c => [.issue c, .readResult, .readStatus]

/-- The readings of the responses, in order. -/
def readingsOf (rs : List Response) : List Reading :=
  rs.flatMap fun r => [.result r.result, .status r.status]

/-- The response a command leaves on a block built with the configuration `c` (00_scope.md R14). -/
def IsResponse (c : Config) (cmd : CommandWord) (r : Response) : Prop :=
  ∃ s t : State, s.config = c ∧ exec (decode cmd) s = .next t ∧ t.result = some r.result ∧ t.status = r.status

/-- The response to group `g` of a host string, five characters from `5g` on, none above 0xFF
(45_host_procedures.md R122). -/
def IsGroupResponse (c : Config) (str : HostString) (g : Nat) (r : Response) : Prop :=
  ∃ c0 c1 c2 c3 c4 : Character,
    str[5 * g]? = some c0.toNat ∧ str[5 * g + 1]? = some c1.toNat ∧ str[5 * g + 2]? = some c2.toNat ∧
      str[5 * g + 3]? = some c3.toNat ∧ str[5 * g + 4]? = some c4.toNat ∧
      IsResponse c (0b01#2 ++ c0 ++ c1 ++ c2 ++ c3 ++ c4) r

/-- A character a JSON string literal cannot hold without escaping (40_alphabet_lookup.md R84, G3). -/
def needsJsonEscape (c : Character) : Bool := decide (c = 0x22#8) || decide (c = 0x5C#8) || decide (c.toNat < 0x20)

end Sys2Proof.Machine
end

