-- ==== Sys2Proof/Certificates/Slice0/Obligations.lean ====
section
/-! DEFINITION. The statements for the provers, each citing the rule of spec/ it formalises. -/

open Sys2Proof Sys2Proof.Machine

/-! ### Reset, stepping and the registers -/

/-- 10_state.md R38 and the reset column of R25; the default policy of 00_scope.md R8. RESULT holds no value and
a read of it faults. -/
def Obligations.ResetLeavesStatusZeroAndNoResult : Prop :=
  State.reset.status = 0x00#8 ∧ statusDone State.reset.status = false ∧ statusErr State.reset.status = false ∧
    statusCause State.reset.status = Cause.none.code ∧ statusEpos State.reset.status = 0#3 ∧
    State.reset.readStatus = 0x00#8 ∧ State.reset.result = none ∧
    State.reset.readResult = .error .resultHoldsNoValue ∧
    State.reset.config.overflowPolicy = .reject

/-- 70_reset_and_hazards.md R160: from every state, reset is a step of its own that writes STATUS and RESULT
and nothing else of the block (the ROMs are constants, the policy is in `config`). The model's choice, and not
R160's: a reset is an action of the port, and it leaves the rest of the port and the readings (log entries 1, 2
and 9). -/
def Obligations.ResetStepClearsStatusAndResult : Prop :=
  ∀ (s : State) (rest : List HostAction), s.port = .reset :: rest →
    step s = .next { config := s.config, result := none, status := 0x00#8, port := rest, readings := s.readings }

/-- The model's step (10_state.md R20, 30_encoding.md R60; log entries 1, 6 and 7): the oldest command of the port
is decoded and executed; with an empty port the block is idle; `withFetchWord` issues a command. -/
def Obligations.StepRunsTheDecodedCommand : Prop :=
  (∀ (s : State) (cmd : CommandWord) (rest : List HostAction), s.port = .issue cmd :: rest →
    step s = exec (decode cmd) { s with port := rest }) ∧
  (∀ s : State, s.port = [] → step s = .next s) ∧
  ∀ (s : State) (nbits w : Nat), w < 2 ^ 42 →
    step (s.withFetchWord nbits w) = exec (decode (BitVec.ofNat 42 w)) s

/-- 60_exceptions.md R142: the model's only fault is the read of RESULT while it holds no value, and a host avoids
it by reading RESULT only when DONE is 1 (in the states that meet the invariant). No step is refused. -/
def Obligations.OnlyFaultIsReadingResultWithoutValue : Prop :=
  (∀ (s : State) (f : Fault), step s = .fault f →
    f = .resultHoldsNoValue ∧ s.result = none ∧ ∃ rest, s.port = .readResult :: rest) ∧
  (∀ (s : State) (rest : List HostAction), s.port = .readResult :: rest → s.result = none →
    step s = .fault .resultHoldsNoValue) ∧
  (∀ (s : State) (r : Refusal), step s ≠ .refused r) ∧
  ∀ (s : State) (rest : List HostAction), s.Inv → s.port = .readResult :: rest → statusDone s.status = true →
    ∃ v, s.result = some v ∧ step s = .next { s with port := rest, readings := s.readings ++ [.result v] }

/-- 10_state.md R24, R25, R30: what the host reads. RESULT is read as it stands; of STATUS bit 7 reads 0 and the
other bits as they stand. Neither read changes the block. (`readings` is the model's own field, log entry 2.) -/
def Obligations.HostReadsRegistersAndBit7IsZero : Prop :=
  (∀ (s : State) (rest : List HostAction) (v : ResultWord), s.port = .readResult :: rest → s.result = some v →
    step s = .next { s with port := rest, readings := s.readings ++ [.result v] }) ∧
  ∀ (s : State) (rest : List HostAction), s.port = .readStatus :: rest →
    ∃ b : StatusByte, step s = .next { s with port := rest, readings := s.readings ++ [.status b] } ∧
      b.getLsbD 7 = false ∧ ∀ k, k < 7 → b.getLsbD k = s.status.getLsbD k

/-- 20_memory.md R50: a read changes neither register nor the configuration, and repeating a command gives the
same RESULT and STATUS. -/
def Obligations.ReadsHaveNoSideEffectAndCommandsRepeat : Prop :=
  (∀ (s t : State) (rest : List HostAction), (s.port = .readResult :: rest ∨ s.port = .readStatus :: rest) →
    step s = .next t →
    t.result = s.result ∧ t.status = s.status ∧ t.config = s.config ∧ t.port = rest) ∧
  ∀ (i : Instr) (s t : State), exec i s = .next t → exec i t = .next t

/-- The invariant of the registers (10_state.md R25 to R30, R38; 60_exceptions.md R140): every step keeps it. -/
def Obligations.StepKeepsRegistersLegal : Prop :=
  ∀ s t : State, s.Inv → step s = .next t → t.Inv

/-- Every step keeps the registers at what reset left or at the response of a command. -/
def Obligations.RegistersAlwaysHoldResetOrAResponse : Prop :=
  ∀ s t : State, s.HoldsAResponse → step s = .next t → t.HoldsAResponse

/-- Both invariants hold after reset, whatever the configuration. -/
def Obligations.ResetMeetsTheInvariants : Prop :=
  State.reset.Inv ∧ State.reset.HoldsAResponse ∧
    ∀ c : Config, (State.resetWith c).Inv ∧ (State.resetWith c).HoldsAResponse

/-- 10_state.md R39: no command and no other step changes OVERFLOW_POLICY, and reset does not. -/
def Obligations.NoStepChangesTheConfiguration : Prop :=
  (∀ s t : State, step s = .next t → t.config = s.config) ∧
  (∀ (i : Instr) (s t : State), exec i s = .next t → t.config = s.config) ∧
  ∀ s : State, s.applyReset.config = s.config

/-- 10_state.md R26. -/
def Obligations.DoneIsSetByOperationsAndClearedByReset : Prop :=
  statusDone State.reset.status = false ∧
  (∀ (i : Instr) (s t : State), exec i s = .next t → statusDone t.status = true) ∧
  (∀ s t : State, statusDone s.status = false → step s = .next t → statusDone t.status = true →
    ∃ cmd rest, s.port = .issue cmd :: rest) ∧
  (∀ s t : State, statusDone s.status = true → step s = .next t → (∀ rest, s.port ≠ .reset :: rest) →
    statusDone t.status = true) ∧
  ∀ (s : State) (rest : List HostAction), s.port = .reset :: rest →
    ∃ t, step s = .next t ∧ statusDone t.status = false

/-- 10_state.md R28 and R29: which operation writes which CAUSE, on which condition, and the EPOS beside it. -/
def Obligations.CauseAndEposSayWhyTheOperationFailed : Prop :=
  ∀ (i : Instr) (s t : State), exec i s = .next t →
    (statusCause t.status = 0#2 ↔ statusErr t.status = false) ∧
    (statusCause t.status = 1#2 ↔
      ∃ c0 c1 c2 c3 c4, i = .dec5 c0 c1 c2 c3 c4 ∧ ∃ c ∈ [c0, c1, c2, c3, c4], c ∉ alphabet) ∧
    (statusCause t.status = 2#2 ↔
      ∃ d0 d1 d2 d3 d4,
        i = .dec5 (symbolAt d0) (symbolAt d1) (symbolAt d2) (symbolAt d3) (symbolAt d4) ∧
          s.config.overflowPolicy = .reject ∧ 2 ^ 32 - 1 < groupValue d0 d1 d2 d3 d4) ∧
    (statusCause t.status = 3#2 ↔ ∃ idx : SymbolIndex, i = .sym idx ∧ 84 < idx.toNat) ∧
    (statusCause t.status ≠ 1#2 → statusEpos t.status = 0#3) ∧
    (statusCause t.status = 1#2 → ∀ c0 c1 c2 c3 c4, i = .dec5 c0 c1 c2 c3 c4 →
      (∃ c, [c0, c1, c2, c3, c4][(statusEpos t.status).toNat]? = some c ∧ c ∉ alphabet) ∧
        ∀ q, q < (statusEpos t.status).toNat → ∃ c, [c0, c1, c2, c3, c4][q]? = some c ∧ c ∈ alphabet)

/-- 60_exceptions.md R140 (and, of DEC5, 42_block_decoder.md R106): an error writes RESULT = 0 and STATUS and
nothing else, and the next command runs as if it had not happened. -/
def Obligations.ErrorsWriteZeroResultAndNothingElse : Prop :=
  (∀ (s : State) (cause : Cause) (pos : BitVec 3),
    s.raiseInvalidInput cause pos =
      { s with result := some 0#40, status := 0#1 ++ pos ++ cause.code ++ 1#1 ++ 1#1 }) ∧
  (∀ (i : Instr) (s : State) (cause : Cause) (pos : BitVec 3),
    exec i (s.raiseInvalidInput cause pos) = exec i s) ∧
  ∀ (i : Instr) (s t : State), exec i s = .next t → statusErr t.status = true →
    t = { s with result := some 0#40, status := t.status }

/-- 00_scope.md R14, for the four commands: every command completes in one step, writes RESULT and STATUS and
nothing else, and what it writes depends on the command and OVERFLOW_POLICY alone. -/
def Obligations.ResponseDependsOnCommandAndPolicyAlone : Prop :=
  ∀ (i : Instr) (s s' : State), s.config.overflowPolicy = s'.config.overflowPolicy →
    ∃ (r : ResultWord) (b : StatusByte),
      exec i s = .next { s with result := some r, status := b } ∧
      exec i s' = .next { s' with result := some r, status := b }

/-! ### The encoder -/

/-- 41_block_encoder.md R90: encoding, result, STATUS, corner cases and example. -/
def Obligations.Enc4EncodesEveryBlock : Prop :=
  (∀ cmd : CommandWord, cmd &&& 0x30000000000#42 = 0x00000000000#42 →
    decode cmd = .enc4 (cmd.extractLsb' 0 32)) ∧
  (∀ (v : BlockValue) (s : State), ∃ a0 a1 a2 a3 a4 : Character,
    alphabet[v.toNat / 85 ^ 4 % 85]? = some a0 ∧ alphabet[v.toNat / 85 ^ 3 % 85]? = some a1 ∧
    alphabet[v.toNat / 85 ^ 2 % 85]? = some a2 ∧ alphabet[v.toNat / 85 ^ 1 % 85]? = some a3 ∧
    alphabet[v.toNat / 85 ^ 0 % 85]? = some a4 ∧
    exec (.enc4 v) s = .next { s with result := some (a0 ++ a1 ++ a2 ++ a3 ++ a4), status := 0x01#8 }) ∧
  ∀ s : State,
    exec (.enc4 0x00000000#32) s = .next { s with result := some 0x3030303030#40, status := 0x01#8 } ∧
    exec (.enc4 0xFFFFFFFF#32) s = .next { s with result := some 0x256E536330#40, status := 0x01#8 } ∧
    exec (.enc4 84#32) s = .next { s with result := some 0x3030303023#40, status := 0x01#8 } ∧
    exec (.enc4 85#32) s = .next { s with result := some 0x3030303130#40, status := 0x01#8 } ∧
    exec (.enc4 0x864FD26F#32) s = .next { s with result := some 0x48656C6C6F#40, status := 0x01#8 }

/-- 41_block_encoder.md R91: the digits put V together, each is at most 84, and no other five digits do; the two
circuits the rule names, from the bottom up and from the top down, give them; and the constants. -/
def Obligations.BlockDigitsExistAndAreUnique : Prop :=
  (∀ v : BlockValue,
    groupValue (digit v 4) (digit v 3) (digit v 2) (digit v 1) (digit v 0) = v.toNat ∧
    (∀ k, (digit v k).val ≤ 84) ∧
    (∀ d0 d1 d2 d3 d4 : Digit, groupValue d0 d1 d2 d3 d4 = v.toNat →
      d0 = digit v 4 ∧ d1 = digit v 3 ∧ d2 = digit v 2 ∧ d3 = digit v 1 ∧ d4 = digit v 0) ∧
    ((digit v 0).val = v.toNat % 85 ∧ (digit v 1).val = v.toNat / 85 % 85 ∧
      (digit v 2).val = v.toNat / 85 / 85 % 85 ∧ (digit v 3).val = v.toNat / 85 / 85 / 85 % 85 ∧
      (digit v 4).val = v.toNat / 85 / 85 / 85 / 85 % 85) ∧
    ((digit v 4).val = v.toNat / 52200625 ∧ (digit v 3).val = v.toNat % 52200625 / 614125 ∧
      (digit v 2).val = v.toNat % 52200625 % 614125 / 7225 ∧
      (digit v 1).val = v.toNat % 52200625 % 614125 % 7225 / 85 ∧
      (digit v 0).val = v.toNat % 52200625 % 614125 % 7225 % 85)) ∧
  85 ^ 1 = 85 ∧ 85 ^ 2 = 7225 ∧ 85 ^ 3 = 614125 ∧ 85 ^ 4 = 52200625

/-- 41_block_encoder.md R92: the leading digit is at most 82 and its `mod 85` changes nothing. -/
def Obligations.LeadingDigitIsAtMost82 : Prop :=
  (∀ v : BlockValue, (digit v 4).val ≤ 82 ∧ (digit v 4).val = v.toNat / 85 ^ 4) ∧
    (digit 0xFFFFFFFF#32 4).val = 82

/-- 41_block_encoder.md R93: ENC4 is injective, and its image is exactly the set of groups that DEC5 accepts
under REJECT. -/
def Obligations.Enc4IsInjectiveOntoTheAcceptedGroups : Prop :=
  (∀ (v w : BlockValue) (s t u : State), exec (.enc4 v) s = .next t → exec (.enc4 w) s = .next u →
    t.result = u.result → v = w) ∧
  ∀ (s : State) (g : Payload), s.config.overflowPolicy = .reject →
    (DecodesWithoutError s g ↔ ∃ v t, exec (.enc4 v) s = .next t ∧ t.result = some g)

/-- 41_block_encoder.md R94 and 40_alphabet_lookup.md R84: every character that ENC4 or SYM puts out is a member of
the alphabet, a JSON string holds it without escaping, and CHK of it returns bit 7 = 1. -/
def Obligations.OutputCharactersAreValidAndJsonSafe : Prop :=
  (∀ (v : BlockValue) (s t : State) (r : ResultWord) (p : Nat), exec (.enc4 v) s = .next t → t.result = some r →
    p < 5 →
    (r.extractLsb' (32 - 8 * p) 8 : Character) ∈ alphabet ∧
    needsJsonEscape (r.extractLsb' (32 - 8 * p) 8) = false ∧
    ∃ u q, exec (.chk (r.extractLsb' (32 - 8 * p) 8)) t = .next u ∧ u.result = some q ∧ q.getLsbD 7 = true) ∧
  ∀ (i : SymbolIndex) (s t : State) (r : ResultWord), exec (.sym i) s = .next t → t.result = some r →
    statusErr t.status = false →
    (r.extractLsb' 0 8 : Character) ∈ alphabet ∧ needsJsonEscape (r.extractLsb' 0 8) = false ∧
    ∃ u q, exec (.chk (r.extractLsb' 0 8)) t = .next u ∧ u.result = some q ∧ q.getLsbD 7 = true

/-! ### The decoder -/

/-- 42_block_decoder.md R102 and R105: a group of valid characters whose value fits 32 bits is decoded to its
value, four big-endian bytes under a zero byte; the value is the Horner sum and never exceeds 85^5 − 1 < 2^33. -/
def Obligations.Dec5DecodesGroupsThatFit : Prop :=
  (∀ d0 d1 d2 d3 d4 : Digit, horner [d0, d1, d2, d3, d4] = groupValue d0 d1 d2 d3 d4 ∧
    groupValue d0 d1 d2 d3 d4 ≤ 85 ^ 5 - 1) ∧ 85 ^ 5 - 1 = 4437053124 ∧ 4437053124 < 2 ^ 33 ∧
  ∀ (c0 c1 c2 c3 c4 : Character) (d0 d1 d2 d3 d4 : Digit) (s : State),
    alphabet[d0.val]? = some c0 → alphabet[d1.val]? = some c1 → alphabet[d2.val]? = some c2 →
    alphabet[d3.val]? = some c3 → alphabet[d4.val]? = some c4 →
    groupValue d0 d1 d2 d3 d4 ≤ 0xFFFFFFFF →
    ∃ v : BlockValue, v.toNat = groupValue d0 d1 d2 d3 d4 ∧
      exec (.dec5 c0 c1 c2 c3 c4) s =
        .next { s with
          result := some (0#8 ++ v.extractLsb' 24 8 ++ v.extractLsb' 16 8 ++ v.extractLsb' 8 8 ++ v.extractLsb' 0 8)
          status := 0x01#8 }

/-- 42_block_decoder.md R101: the leftmost character that is not in the alphabet ends DEC5, whatever the policy
and the other characters, so before any overflow; every code from 0x80 up is such a character. -/
def Obligations.Dec5ReportsTheLeftmostInvalidCharacter : Prop :=
  (∀ (c0 c1 c2 c3 c4 c : Character) (s : State) (p : Nat),
    [c0, c1, c2, c3, c4][p]? = some c → c ∉ alphabet →
    (∀ q, q < p → ∃ a, [c0, c1, c2, c3, c4][q]? = some a ∧ a ∈ alphabet) →
    exec (.dec5 c0 c1 c2 c3 c4) s =
      .next { s with result := some 0#40, status := BitVec.ofNat 8 (0x07 + 16 * p) }) ∧
  ∀ c : Character, 0x80 ≤ c.toNat → c ∉ alphabet

/-- 42_block_decoder.md R103: overflow under REJECT. -/
def Obligations.Dec5RejectsOverflowUnderReject : Prop :=
  ∀ (d0 d1 d2 d3 d4 : Digit) (s : State), s.config.overflowPolicy = .reject →
    0xFFFFFFFF < groupValue d0 d1 d2 d3 d4 →
    exec (.dec5 (symbolAt d0) (symbolAt d1) (symbolAt d2) (symbolAt d3) (symbolAt d4)) s =
      .next { s with result := some 0#40, status := 0x0B#8 }

/-- 42_block_decoder.md R104: overflow under WRAP, and the pair of groups that shows DEC5 is not injective there
(`"%nSc1"` and `"00000"`). -/
def Obligations.Dec5WrapsOverflowUnderWrap : Prop :=
  (∀ (d0 d1 d2 d3 d4 : Digit) (s : State), s.config.overflowPolicy = .wrap →
    0xFFFFFFFF < groupValue d0 d1 d2 d3 d4 →
    exec (.dec5 (symbolAt d0) (symbolAt d1) (symbolAt d2) (symbolAt d3) (symbolAt d4)) s =
      .next { s with
        result := some (BitVec.ofNat 40 (groupValue d0 d1 d2 d3 d4 % 2 ^ 32))
        status := 0x01#8 }) ∧
  ∀ s : State, s.config.overflowPolicy = .wrap →
    exec (.dec5 0x25#8 0x6E#8 0x53#8 0x63#8 0x31#8) s = .next { s with result := some 0#40, status := 0x01#8 } ∧
    exec (.dec5 0x30#8 0x30#8 0x30#8 0x30#8 0x30#8) s = .next { s with result := some 0#40, status := 0x01#8 }

/-- 42_block_decoder.md R100, its encoding, corner cases and example, under the policies it names. -/
def Obligations.Dec5MeetsItsCornerCases : Prop :=
  (∀ cmd : CommandWord, cmd &&& 0x30000000000#42 = 0x10000000000#42 →
    decode cmd = .dec5 (cmd.extractLsb' 32 8) (cmd.extractLsb' 24 8) (cmd.extractLsb' 16 8) (cmd.extractLsb' 8 8)
      (cmd.extractLsb' 0 8)) ∧
  (∀ s : State,
    exec (decode 0x13030303030#42) s = .next { s with result := some 0x0000000000#40, status := 0x01#8 } ∧
    exec (decode 0x1256E536330#42) s = .next { s with result := some 0x00FFFFFFFF#40, status := 0x01#8 } ∧
    exec (decode 0x148656C226F#42) s = .next { s with result := some 0#40, status := 0x37#8 } ∧
    exec (decode 0x148806C226F#42) s = .next { s with result := some 0#40, status := 0x17#8 } ∧
    exec (decode 0x12323222323#42) s = .next { s with result := some 0#40, status := 0x27#8 } ∧
    exec (decode 0x148656C6C6F#42) s = .next { s with result := some 0x00864FD26F#40, status := 0x01#8 }) ∧
  (∀ s : State, s.config.overflowPolicy = .reject →
    exec (decode 0x1256E536331#42) s = .next { s with result := some 0#40, status := 0x0B#8 } ∧
    exec (decode 0x12323232323#42) s = .next { s with result := some 0#40, status := 0x0B#8 }) ∧
  ∀ s : State, s.config.overflowPolicy = .wrap →
    exec (decode 0x1256E536331#42) s = .next { s with result := some 0#40, status := 0x01#8 } ∧
    exec (decode 0x12323232323#42) s = .next { s with result := some 0x0008780EC4#40, status := 0x01#8 }

/-- 42_block_decoder.md R107: DEC5 of the RESULT of ENC4 gives V back, under either policy. -/
def Obligations.Dec5OfEnc4GivesTheBlockBack : Prop :=
  ∀ (v : BlockValue) (s t u : State) (r : ResultWord), exec (.enc4 v) s = .next t → t.result = some r →
    exec (decode (0b01#2 ++ r)) u = .next { u with result := some (v.setWidth 40), status := 0x01#8 }

/-- 42_block_decoder.md R108: under REJECT, DEC5 succeeds on exactly 2^32 groups; they are the groups of valid
characters with value at most 0xFFFFFFFF and exactly the RESULTs of ENC4; ENC4 of the result gives the group back;
and the leftmost digit decides as the rule says, `"%nSc1"` being the smallest group that overflows. -/
def Obligations.RejectAcceptsExactlyTheEncodedGroups : Prop :=
  ∀ s : State, s.config.overflowPolicy = .reject →
    Nat.card { g : Payload // DecodesWithoutError s g } = 2 ^ 32 ∧
    (∀ g : Payload, DecodesWithoutError s g ↔ ∃ v t, exec (.enc4 v) s = .next t ∧ t.result = some g) ∧
    (∀ (g : Payload) (t : State), exec (decode (0b01#2 ++ g)) s = .next t → statusErr t.status = false →
      ∃ v u, t.result = some (v.setWidth 40) ∧ exec (.enc4 v) t = .next u ∧ u.result = some g) ∧
    (∀ g : Payload, DecodesWithoutError s g →
      ∀ p, p < 5 → (g.extractLsb' (32 - 8 * p) 8 : Character) ∈ alphabet) ∧
    (∀ d0 d1 d2 d3 d4 : Digit,
      let g : Payload := symbolAt d0 ++ symbolAt d1 ++ symbolAt d2 ++ symbolAt d3 ++ symbolAt d4
      (DecodesWithoutError s g ↔ groupValue d0 d1 d2 d3 d4 ≤ 0xFFFFFFFF) ∧
      (d0.val ≤ 81 → DecodesWithoutError s g) ∧
      (d0.val = 82 → (DecodesWithoutError s g ↔ ¬ 2 ^ 32 ≤ groupValue d0 d1 d2 d3 d4)) ∧
      (83 ≤ d0.val → ¬ DecodesWithoutError s g)) ∧
    ∃ d0 d1 d2 d3 d4 : Digit, groupValue d0 d1 d2 d3 d4 = 2 ^ 32 ∧ d0.val = 82 ∧
      (symbolAt d0 ++ symbolAt d1 ++ symbolAt d2 ++ symbolAt d3 ++ symbolAt d4 : Payload) = 0x256E536331#40

/-! ### The lookups and the tables -/

/-- 40_alphabet_lookup.md R80: encoding, result, STATUS, corner cases and example. -/
def Obligations.ChkAnswersValidityAndValue : Prop :=
  (∀ cmd : CommandWord, cmd &&& 0x30000000000#42 = 0x20000000000#42 →
    decode cmd = .chk (cmd.extractLsb' 0 8)) ∧
  (∀ (c : Character) (s : State) (d : Nat), alphabet[d]? = some c →
    exec (.chk c) s = .next { s with result := some (BitVec.ofNat 40 (0x80 + d)), status := 0x01#8 }) ∧
  (∀ (c : Character) (s : State), c ∉ alphabet →
    exec (.chk c) s = .next { s with result := some 0#40, status := 0x01#8 }) ∧
  ∀ s : State,
    exec (.chk 0x30#8) s = .next { s with result := some 0x80#40, status := 0x01#8 } ∧
    exec (.chk 0x23#8) s = .next { s with result := some 0xD4#40, status := 0x01#8 } ∧
    (∀ c ∈ [0x22#8, 0x5C#8, 0x7F#8, 0x20#8, 0x00#8],
      exec (.chk c) s = .next { s with result := some 0#40, status := 0x01#8 }) ∧
    (∀ c : Character, 0x80 ≤ c.toNat →
      exec (.chk c) s = .next { s with result := some 0#40, status := 0x01#8 }) ∧
    exec (decode 0x20000000048#42) s = .next { s with result := some 0x00000000AB#40, status := 0x01#8 }

/-- 40_alphabet_lookup.md R81: encoding, result, STATUS, RANGE, corner cases and example. -/
def Obligations.SymAnswersTheSymbolOrRange : Prop :=
  (∀ cmd : CommandWord, cmd &&& 0x30000000000#42 = 0x30000000000#42 →
    decode cmd = .sym (cmd.extractLsb' 0 7)) ∧
  (∀ (i : SymbolIndex) (s : State), i.toNat ≤ 84 →
    ∃ a : Character, alphabet[i.toNat]? = some a ∧
      exec (.sym i) s = .next { s with result := some (0#32 ++ a), status := 0x01#8 }) ∧
  (∀ (i : SymbolIndex) (s : State), 84 < i.toNat →
    exec (.sym i) s = .next { s with result := some 0#40, status := 0x0F#8 }) ∧
  ∀ s : State,
    exec (.sym 0#7) s = .next { s with result := some 0x30#40, status := 0x01#8 } ∧
    exec (.sym 84#7) s = .next { s with result := some 0x23#40, status := 0x01#8 } ∧
    exec (.sym 85#7) s = .next { s with result := some 0#40, status := 0x0F#8 } ∧
    exec (.sym 127#7) s = .next { s with result := some 0#40, status := 0x0F#8 } ∧
    exec (decode 0x3000000002B#42) s = .next { s with result := some 0x0000000048#40, status := 0x01#8 }

/-- 40_alphabet_lookup.md R82: the alphabet is the only validity oracle, for CHK and for DEC5. -/
def Obligations.AlphabetIsTheOnlyValidityOracle : Prop :=
  (∀ (c : Character) (s : State), ∃ t r, exec (.chk c) s = .next t ∧ t.result = some r ∧
    (r.getLsbD 7 = true ↔ c ∈ alphabet) ∧ (r.getLsbD 7 = true ↔ dmap c ≠ none)) ∧
  ∀ (c0 c1 c2 c3 c4 : Character) (s : State), ∃ t, exec (.dec5 c0 c1 c2 c3 c4) s = .next t ∧
    (statusCause t.status = Cause.invalidChar.code ↔
      ∃ c ∈ [c0, c1, c2, c3, c4], ∀ u r, exec (.chk c) s = .next u → u.result = some r → r.getLsbD 7 = false)

/-- 40_alphabet_lookup.md R83: SYM and CHK invert each other. -/
def Obligations.SymAndChkInvertEachOther : Prop :=
  (∀ (i : SymbolIndex) (s : State), i.toNat ≤ 84 →
    ∃ t r u, exec (.sym i) s = .next t ∧ t.result = some r ∧
      exec (.chk (r.extractLsb' 0 8)) t = .next u ∧ u.result = some (BitVec.ofNat 40 (0x80 + i.toNat))) ∧
  ∀ (c : Character) (s : State), c ∈ alphabet →
    ∃ t r u, exec (.chk c) s = .next t ∧ t.result = some r ∧
      exec (.sym (r.extractLsb' 0 7)) t = .next u ∧ u.result = some (0#32 ++ c)

/-- 10_state.md R32: 85 distinct printable symbols, none of which a JSON string must escape. -/
def Obligations.AlphabetHas85DistinctPrintableSymbols : Prop :=
  alphabet.length = 85 ∧ alphabet.Nodup ∧
    (∀ c ∈ alphabet, 0x21 ≤ c.toNat ∧ c.toNat ≤ 0x7D ∧ c ≠ 0x22#8 ∧ c ≠ 0x5C#8) ∧
    ∀ c ∈ alphabet, needsJsonEscape c = false

/-- 10_state.md R33: DMAP is the inverse of ALPHABET, and its entries in 8 bits. -/
def Obligations.DmapIsTheInverseOfAlphabet : Prop :=
  (∀ (c : Character) (d : Digit), dmap c = some d ↔ alphabet[d.val]? = some c) ∧
  (∀ c : Character, dmap c = none ↔ ∀ i, i < 85 → alphabet[i]? ≠ some c) ∧
  (∀ (c : Character) (d : Digit), dmap c = some d → (dmapEntry c).toNat = 0x80 + d.val) ∧
  (∀ c : Character, dmap c = none → dmapEntry c = 0x00#8) ∧
  ∀ (c : Character) (s : State), exec (.chk c) s =
    .next { s with result := some (0#32 ++ dmapEntry c), status := 0x01#8 }

/-- 10_state.md R34: DMAP written out. -/
def Obligations.DmapMatchesTheWrittenTable : Prop :=
  (∀ c : Character, (c.toNat ≤ 0x20 ∨ c.toNat = 0x7F ∨ 0x80 ≤ c.toNat) → dmap c = none) ∧
  (∀ c ∈ [0x22#8, 0x27#8, 0x2C#8, 0x3B#8, 0x5C#8, 0x5F#8, 0x60#8, 0x7C#8, 0x7E#8], dmap c = none) ∧
  (∀ c : Character, 0x30 ≤ c.toNat → c.toNat ≤ 0x39 → (dmap c).map Fin.val = some (c.toNat - 0x30)) ∧
  (∀ c : Character, 0x61 ≤ c.toNat → c.toNat ≤ 0x7A → (dmap c).map Fin.val = some (c.toNat - 0x61 + 10)) ∧
  (∀ c : Character, 0x41 ≤ c.toNat → c.toNat ≤ 0x5A → (dmap c).map Fin.val = some (c.toNat - 0x41 + 36)) ∧
  ∀ e ∈ [(0x21#8, 68), (0x23#8, 84), (0x24#8, 83), (0x25#8, 82), (0x26#8, 72), (0x28#8, 75), (0x29#8, 76),
      (0x2A#8, 70), (0x2B#8, 65), (0x2D#8, 63), (0x2E#8, 62), (0x2F#8, 69)] ++
      [(0x3A#8, 64), (0x3C#8, 73), (0x3D#8, 66), (0x3E#8, 74), (0x3F#8, 71), (0x40#8, 81), (0x5B#8, 77),
      (0x5D#8, 78), (0x5E#8, 67), (0x7B#8, 79), (0x7D#8, 80)],
    (dmap e.1).map Fin.val = some e.2

/-! ### The command words -/

/-- 30_encoding.md R62: exactly one row of the opcode table matches a word, and it is the row of the instruction
decoded. -/
def Obligations.ExactlyOneTableRowMatchesEveryWord : Prop :=
  ∀ cmd : CommandWord,
    (cmd &&& 0x30000000000#42 = 0x00000000000#42 ↔ (decode cmd).operation = .enc4) ∧
    (cmd &&& 0x30000000000#42 = 0x10000000000#42 ↔ (decode cmd).operation = .dec5) ∧
    (cmd &&& 0x30000000000#42 = 0x20000000000#42 ↔ (decode cmd).operation = .chk) ∧
    (cmd &&& 0x30000000000#42 = 0x30000000000#42 ↔ (decode cmd).operation = .sym) ∧
    ∃ m ∈ [0x00000000000#42, 0x10000000000#42, 0x20000000000#42, 0x30000000000#42],
      cmd &&& 0x30000000000#42 = m ∧
      ∀ m' ∈ [0x00000000000#42, 0x10000000000#42, 0x20000000000#42, 0x30000000000#42],
        cmd &&& 0x30000000000#42 = m' → m' = m

/-- 30_encoding.md R63 to R66: the operands of a word put together field by field, whatever its ignored bits, and
the number an ENC4 operand is (20_memory.md R41). -/
def Obligations.PayloadFieldsDecodeToTheOperands : Prop :=
  (∀ (x : BitVec 8) (b0 b1 b2 b3 : Byte), ∃ v : BlockValue,
    decode (0b00#2 ++ x ++ b0 ++ b1 ++ b2 ++ b3) = .enc4 v ∧
    v.toNat = b0.toNat * 2 ^ 24 + b1.toNat * 2 ^ 16 + b2.toNat * 2 ^ 8 + b3.toNat) ∧
  (∀ c0 c1 c2 c3 c4 : Character,
    decode (0b01#2 ++ c0 ++ c1 ++ c2 ++ c3 ++ c4) = .dec5 c0 c1 c2 c3 c4) ∧
  (∀ (x : BitVec 32) (c : Character), decode (0b10#2 ++ x ++ c) = .chk c) ∧
  ∀ (x : BitVec 33) (i : SymbolIndex), decode (0b11#2 ++ x ++ i) = .sym i

/-- 30_encoding.md R69 and R70: decoding an encoded instruction gives it back, and encoding a decoded word gives
the word back with its ignored bits cleared. Every instruction is well formed. -/
def Obligations.DecodeAndEncodeAgree : Prop :=
  (∀ i : Instr, i.wellFormed = true ∧ decode (encode i) = i) ∧
  ∀ cmd : CommandWord,
    encode (decode cmd) = cmd &&&
      match (decode cmd).operation with
      | .enc4 => 0x300FFFFFFFF#42
      | .dec5 => 0x3FFFFFFFFFF#42
      | .chk => 0x300000000FF#42
      | .sym => 0x3000000007F#42

/-- 30_encoding.md R68: two commands that differ only in ignored bits give the same RESULT and STATUS, and the
same next state. -/
def Obligations.IgnoredPayloadBitsHaveNoEffect : Prop :=
  ∀ (cmd cmd' : CommandWord) (s s' t : State) (rest : List HostAction),
    ((cmd &&& 0x30000000000#42 = 0x00000000000#42 ∧ cmd &&& 0x300FFFFFFFF#42 = cmd' &&& 0x300FFFFFFFF#42) ∨
     (cmd &&& 0x30000000000#42 = 0x20000000000#42 ∧ cmd &&& 0x300000000FF#42 = cmd' &&& 0x300000000FF#42) ∨
     (cmd &&& 0x30000000000#42 = 0x30000000000#42 ∧ cmd &&& 0x3000000007F#42 = cmd' &&& 0x3000000007F#42)) →
    s.port = .issue cmd :: rest → s' = { s with port := .issue cmd' :: rest } →
    step s = .next t → step s' = .next t

/-- Command words written out from 30_encoding.md R62 to R66, bit by bit for one of each operation, and words of
95_test_vectors.md, decode to the instructions they stand for. The model's choice (log entry 8): the numbering
that `decodeTableWord` reads, and that it refuses a number of 2^42 or more. -/
def Obligations.WordsOfTheSpecDecode : Prop :=
  decode 0b00_00000000_10000110_01001111_11010010_01101111#42 = .enc4 0x864FD26F#32 ∧
  decode 0b01_01001000_01100101_01101100_01101100_01101111#42 = .dec5 0x48#8 0x65#8 0x6C#8 0x6C#8 0x6F#8 ∧
  decode 0b10_00000000_00000000_00000000_00000000_01001000#42 = .chk 0x48#8 ∧
  decode 0b11_00000000_00000000_00000000_00000000_00101011#42 = .sym 43#7 ∧
  decode 0x0FF864FD26F#42 = .enc4 0x864FD26F#32 ∧
  decode 0x2ABCDEF1248#42 = .chk 0x48#8 ∧
  decode 0x30000000085#42 = .sym 5#7 ∧
  decodeTableWord 48 0x3000000007F = some (.sym 127#7) ∧
  decodeTableWord 48 (2 ^ 42) = none

/-- 20_memory.md R41 to R43 and 30_encoding.md R67: four bytes make a block value in big-endian order, the value
falls apart into the same bytes, a DEC5 that succeeds with V puts `V[31:24]` out first and `V[7:0]` last, which is
the inverse of R41, and the characters of an ENC4 RESULT lie where a DEC5 payload has them. -/
def Obligations.BlocksAreBigEndianBothWays : Prop :=
  (∀ b0 b1 b2 b3 : Byte,
    (blockOfBytes b0 b1 b2 b3).toNat =
      b0.toNat * 2 ^ 24 + b1.toNat * 2 ^ 16 + b2.toNat * 2 ^ 8 + b3.toNat) ∧
  (∀ b0 b1 b2 b3 : Byte,
    let r : ResultWord := (blockOfBytes b0 b1 b2 b3).setWidth 40
    resultByte r 0 = b0 ∧ resultByte r 1 = b1 ∧ resultByte r 2 = b2 ∧ resultByte r 3 = b3) ∧
  (∀ (d0 d1 d2 d3 d4 : Digit) (s : State) (v : BlockValue),
    v.toNat = groupValue d0 d1 d2 d3 d4 % 2 ^ 32 →
    (groupValue d0 d1 d2 d3 d4 ≤ 0xFFFFFFFF ∨ s.config.overflowPolicy = .wrap) →
    ∃ t r, exec (.dec5 (symbolAt d0) (symbolAt d1) (symbolAt d2) (symbolAt d3) (symbolAt d4)) s = .next t ∧
      t.result = some r ∧
      r.extractLsb' 24 8 = v.extractLsb' 24 8 ∧ r.extractLsb' 16 8 = v.extractLsb' 16 8 ∧
      r.extractLsb' 8 8 = v.extractLsb' 8 8 ∧ r.extractLsb' 0 8 = v.extractLsb' 0 8 ∧
      blockOfBytes (resultByte r 0) (resultByte r 1) (resultByte r 2) (resultByte r 3) = v) ∧
  ∀ (v : BlockValue) (s t : State) (r : ResultWord), exec (.enc4 v) s = .next t → t.result = some r →
    decode (0b01#2 ++ r) =
      .dec5 (symbolAt (digit v 4)) (symbolAt (digit v 3)) (symbolAt (digit v 2)) (symbolAt (digit v 1))
        (symbolAt (digit v 0))

/-- 30_encoding.md R70: each written form assembles to its command word, with 0 in every ignored bit. The last
clause is the model's choice (log entries 15 and 17), and R70 says nothing of refusing: a written command whose
numbers do not fit their fields assembles to nothing, and no other does. -/
def Obligations.WrittenFormsAssembleToTheirWords : Prop :=
  (∀ v : BlockValue, (assembleWritten (.enc4Word v.toNat)).map encode = some (0b00#2 ++ 0x00#8 ++ v)) ∧
  (∀ b0 b1 b2 b3 : Byte,
    (assembleWritten (.enc4Bytes b0.toNat b1.toNat b2.toNat b3.toNat)).map encode =
      some (0b00#2 ++ 0x00#8 ++ b0 ++ b1 ++ b2 ++ b3)) ∧
  (∀ c0 c1 c2 c3 c4 : Character,
    (assembleWritten (.dec5Text [c0.toNat, c1.toNat, c2.toNat, c3.toNat, c4.toNat])).map encode =
      some (0b01#2 ++ c0 ++ c1 ++ c2 ++ c3 ++ c4)) ∧
  (∀ din : Payload, (assembleWritten (.dec5Word din.toNat)).map encode = some (0b01#2 ++ din)) ∧
  (∀ c : Character, (assembleWritten (.chk c.toNat)).map encode = some (0b10#2 ++ c.setWidth 40)) ∧
  (∀ n : Nat, n ≤ 127 → (assembleWritten (.sym n)).map encode = some (0b11#2 ++ BitVec.ofNat 40 n)) ∧
  ∀ w : WrittenCommand, assembleWritten w = none ↔ w.wellFormed = false

/-- 30_encoding.md R70 on text: the hex forms of ENC4, DEC5 and CHK are read back from the line that writes them
(the blanks are log entry 15), and a command word is written as `0x` and eleven hex digits. -/
def Obligations.AssemblerReadsTheHexFormsBack : Prop :=
  (∀ v : BlockValue, assembleLine ('E' :: 'N' :: 'C' :: '4' :: ' ' :: hexText 8 v.toNat) =
    .command (0b00#2 ++ 0x00#8 ++ v)) ∧
  (∀ din : Payload, assembleLine ('D' :: 'E' :: 'C' :: '5' :: ' ' :: hexText 10 din.toNat) =
    .command (0b01#2 ++ din)) ∧
  (∀ c : Character, assembleLine ('C' :: 'H' :: 'K' :: ' ' :: hexText 2 c.toNat) =
    .command (0b10#2 ++ c.setWidth 40)) ∧
  ∀ cmd : CommandWord, (commandText cmd).length = 13 ∧ hexNumber 11 (commandText cmd) = some (cmd.toNat, [])

/-! ### Host and instances -/

/-- 20_memory.md R52: a host that reads RESULT and STATUS after each command and before the next sees exactly that
command's response, in issue order, whatever the state before. -/
def Obligations.HostSeesEachResponseInIssueOrder : Prop :=
  ∀ (cmds : List CommandWord) (s : State), ∃ rs : List Response,
    List.Forall₂ (fun c r => ∃ t, exec (decode c) s = .next t ∧ t.result = some r.result ∧ t.status = r.status)
      cmds rs ∧
    ∃ t, run (3 * cmds.length) { s with port := issueAndRead cmds } = .next t ∧
      t.port = [] ∧ t.config = s.config ∧ t.readings = s.readings ++ readingsOf rs

/-- 70_reset_and_hazards.md R167 with R142 and R168: a host that reads RESULT only when an operation has completed
since reset never stops the machine, from every state that meets the invariant. -/
def Obligations.DisciplinedHostNeverFaults : Prop :=
  ∀ s : State, s.Inv → readsOnlyWhenDone (statusDone s.status) s.port = true → RunsSafely s

/-- After 20_memory.md R53: under any interleaving of the steps of separate instances, each instance is where its
own steps alone would have brought it. The bank is the model's choice (log entry 14): a list of separate outcomes,
a stopped one stays stopped, and an index outside the list does nothing. -/
def Obligations.InstancesAreIndependent : Prop :=
  ∀ (schedule : List Nat) (bank : List StepOutcome) (k : Nat),
    (bankRun schedule bank)[k]? = bank[k]?.map (stepsAlone (schedule.count k))

/-! ### Host procedures -/

/-- 45_host_procedures.md R121 and R130: ENCODE never fails, issues one ENC4 per group of the padded buffer, in
order, and returns the characters of their RESULTs, ⌈L/4⌉·5 of them. -/
def Obligations.EncodeBufferIssuesOneEnc4PerGroup : Prop :=
  ∀ (b : List Byte) (h : Session), ∃ str h' cmds,
    encodeBuffer b h = .returns str h' ∧ h'.issued = h.issued ++ cmds ∧
    cmds.length = (b.length + 3) / 4 ∧ str.length = (b.length + 3) / 4 * 5 ∧
    ∀ g, g < (b.length + 3) / 4 → ∃ (b0 b1 b2 b3 : Byte) (r : ResultWord),
      (b ++ List.replicate ((4 - b.length % 4) % 4) 0x00#8)[4 * g]? = some b0 ∧
      (b ++ List.replicate ((4 - b.length % 4) % 4) 0x00#8)[4 * g + 1]? = some b1 ∧
      (b ++ List.replicate ((4 - b.length % 4) % 4) 0x00#8)[4 * g + 2]? = some b2 ∧
      (b ++ List.replicate ((4 - b.length % 4) % 4) 0x00#8)[4 * g + 3]? = some b3 ∧
      cmds[g]? = some (0b00#2 ++ 0x00#8 ++ b0 ++ b1 ++ b2 ++ b3) ∧
      IsResponse h.block.config (0b00#2 ++ 0x00#8 ++ b0 ++ b1 ++ b2 ++ b3) { result := r, status := 0x01#8 } ∧
      str[5 * g]? = some (r.extractLsb' 32 8).toNat ∧ str[5 * g + 1]? = some (r.extractLsb' 24 8).toNat ∧
      str[5 * g + 2]? = some (r.extractLsb' 16 8).toNat ∧ str[5 * g + 3]? = some (r.extractLsb' 8 8).toNat ∧
      str[5 * g + 4]? = some (r.extractLsb' 0 8).toNat

/-- 45_host_procedures.md R122 (and, of DECODE, R130): a wide character or a length that is no multiple of 5 fails
before any command; otherwise the groups are decoded in order, and the first ERR = 1 ends the procedure. -/
def Obligations.DecodeStringChecksThenDecodesGroups : Prop :=
  ∀ (str : HostString) (h : Session),
    ((∃ c ∈ str, 0xFF < c) → ∃ e, decodeString str h = .fails e h) ∧
    (str.length % 5 ≠ 0 → ∃ e, decodeString str h = .fails e h) ∧
    ((∀ c ∈ str, c ≤ 0xFF) → str.length % 5 = 0 →
      ((∀ g r, g < str.length / 5 → IsGroupResponse h.block.config str g r → statusErr r.status = false) →
        ∃ out h', decodeString str h = .returns out h' ∧ out.length = str.length / 5 * 4 ∧
          h'.issued.length = h.issued.length + str.length / 5 ∧
          ∀ g r, g < str.length / 5 → IsGroupResponse h.block.config str g r →
            out[4 * g]? = some (r.result.extractLsb' 24 8) ∧ out[4 * g + 1]? = some (r.result.extractLsb' 16 8) ∧
            out[4 * g + 2]? = some (r.result.extractLsb' 8 8) ∧ out[4 * g + 3]? = some (r.result.extractLsb' 0 8)) ∧
      ∀ g r, g < str.length / 5 → IsGroupResponse h.block.config str g r → statusErr r.status = true →
        (∀ g' r', g' < g → IsGroupResponse h.block.config str g' r' → statusErr r'.status = false) →
        ∃ e h', decodeString str h = .fails e h' ∧ h'.issued.length = h.issued.length + g + 1)

/-- 45_host_procedures.md R123: every check of DECODE, then the first `n` bytes, or a failure where there are fewer. -/
def Obligations.DecodeStringToTruncatesOrFails : Prop :=
  ∀ (str : HostString) (n : Nat) (h : Session),
    (∀ e h', decodeString str h = .fails e h' → decodeStringTo str n h = .fails e h') ∧
    ∀ full h', decodeString str h = .returns full h' →
      (n ≤ full.length → decodeStringTo str n h = .returns (full.take n) h') ∧
      (full.length < n → ∃ e, decodeStringTo str n h = .fails e h')

/-- 45_host_procedures.md R128: empty input, and no command is issued. -/
def Obligations.EmptyInputIssuesNoCommand : Prop :=
  ∀ h : Session, encodeBuffer [] h = .returns [] h ∧ decodeString [] h = .returns [] h ∧
    decodeStringTo [] 0 h = .returns [] h

/-- 45_host_procedures.md R129: decoding what ENCODE returned, to the buffer's length, gives the buffer back, and
decoding what ENCODE_UUID returned, 20 characters, gives the UUID back, under either policy. -/
def Obligations.DecodingWhatWasEncodedGivesItBack : Prop :=
  (∀ (b : List Byte) (h : Session), ∃ str h₁ h₂,
    encodeBuffer b h = .returns str h₁ ∧ decodeStringTo str b.length h₁ = .returns b h₂) ∧
  ∀ (u : Uuid) (h : Session), ∃ str h₁ h₂,
    encodeUuid u h = .returns str h₁ ∧ str.length = 20 ∧ decodeUuid str h₁ = .returns u h₂

/-- 45_host_procedures.md R125 and R127: ENCODE_UUID is ENCODE of the sixteen bytes of the UUID, `msb` and then
`lsb`, big-endian; it issues four commands and returns 20 characters, the constant of the host. -/
def Obligations.EncodeUuidIsFourCommandsAndTwentyCharacters : Prop :=
  uuidEncodedLength = 20 ∧
  ∀ (b0 b1 b2 b3 b4 b5 b6 b7 b8 b9 b10 b11 b12 b13 b14 b15 : Byte) (h : Session), ∃ str h',
    encodeUuid { msb := b0 ++ b1 ++ b2 ++ b3 ++ b4 ++ b5 ++ b6 ++ b7
                 lsb := b8 ++ b9 ++ b10 ++ b11 ++ b12 ++ b13 ++ b14 ++ b15 } h = .returns str h' ∧
    encodeBuffer [b0, b1, b2, b3, b4, b5, b6, b7, b8, b9, b10, b11, b12, b13, b14, b15] h = .returns str h' ∧
    str.length = uuidEncodedLength ∧ h'.issued.length = h.issued.length + 4

/-- 45_host_procedures.md R126: DECODE_UUID fails unless the string is exactly 20 characters of the alphabet; and
where it succeeds, its integers are the sixteen decoded bytes in big-endian order. -/
def Obligations.DecodeUuidNeedsTwentyValidCharacters : Prop :=
  (∀ (str : HostString) (h : Session), str.length ≠ 20 → ∃ e, decodeUuid str h = .fails e h) ∧
  (∀ (str : HostString) (h : Session) (c : Nat), c ∈ str → (∀ a ∈ alphabet, a.toNat ≠ c) →
    ∃ e h', decodeUuid str h = .fails e h') ∧
  ∀ (str : HostString) (h h' : Session) (u : Uuid), decodeUuid str h = .returns u h' →
    ∃ b0 b1 b2 b3 b4 b5 b6 b7 b8 b9 b10 b11 b12 b13 b14 b15 : Byte,
      decodeString str h =
        .returns [b0, b1, b2, b3, b4, b5, b6, b7, b8, b9, b10, b11, b12, b13, b14, b15] h' ∧
      u.msb = b0 ++ b1 ++ b2 ++ b3 ++ b4 ++ b5 ++ b6 ++ b7 ∧
      u.lsb = b8 ++ b9 ++ b10 ++ b11 ++ b12 ++ b13 ++ b14 ++ b15

/-- 45_host_procedures.md R124: a host procedure ends by returning or by InvalidInput, never by a stop of the
block; the message contains the phrase, or names the alignment where the length is no multiple of 5. The rest of
the text is a free value (log entry 12): the statement holds for every value of it. -/
def Obligations.HostFailuresAreInvalidInputWithThePhrase : Prop :=
  (∀ (str : HostString) (n : Nat) (h : Session) (r : Fault ⊕ Refusal),
    decodeString str h ≠ .stops r ∧ decodeStringTo str n h ≠ .stops r ∧ decodeUuid str h ≠ .stops r) ∧
  ∀ (str : HostString) (n : Nat) (h h' : Session) (e : InvalidInput),
    (decodeString str h = .fails e h' ∨ decodeStringTo str n h = .fails e h' ∨ decodeUuid str h = .fails e h') →
    (∃ before after, e.message.text = before ++ "Input is not valid Z85" ++ after) ∨
      (str.length % 5 ≠ 0 ∧ ∃ t, e.message = .namesAlignment t)
end

