-- ==== Sys2Proof/Laws/Decode.lean ====
section
/-! SUPPORT. The fields of a command word, as numbers, and a word put together from its fields. -/

namespace Sys2Proof

/-- Two bit vectors side by side, as one number. -/
theorem append_toNat {m n : Nat} (x : BitVec m) (y : BitVec n) :
    (x ++ y).toNat = x.toNat * 2 ^ n + y.toNat := by
  rw [BitVec.toNat_append, ← Nat.shiftLeft_add_eq_or_of_lt y.isLt, Nat.shiftLeft_eq]

/-- A field of a bit vector, as a number. -/
theorem extract_toNat {w : Nat} (x : BitVec w) (start len : Nat) :
    (x.extractLsb' start len).toNat = x.toNat / 2 ^ start % 2 ^ len := by
  rw [BitVec.extractLsb'_toNat, Nat.shiftRight_eq_div_pow]

/-- A command word of its two fields, as a number. -/
theorem command_toNat (op : BitVec 2) (din : Payload) :
    (op ++ din : CommandWord).toNat = op.toNat * 2 ^ 40 + din.toNat := append_toNat op din

@[simp] theorem opField_append (op : BitVec 2) (din : Payload) : opField (op ++ din : CommandWord) = op := by
  have := op.isLt; have := din.isLt
  apply BitVec.eq_of_toNat_eq
  rw [opField, extract_toNat, command_toNat]
  omega

@[simp] theorem dinField_append (op : BitVec 2) (din : Payload) : dinField (op ++ din : CommandWord) = din := by
  have := op.isLt; have := din.isLt
  apply BitVec.eq_of_toNat_eq
  rw [dinField, extract_toNat, command_toNat]
  omega

/-- A command word is its two fields. -/
theorem op_append_din (cmd : CommandWord) : (opField cmd ++ dinField cmd : CommandWord) = cmd := by
  have := cmd.isLt
  apply BitVec.eq_of_toNat_eq
  rw [command_toNat, opField, dinField, extract_toNat, extract_toNat]
  omega

@[simp] theorem operationOf_code (o : Operation) : operationOf o.code = o := by
  cases o <;> decide

/-- The code of the operation a field selects is that field. -/
theorem code_operationOf (op : BitVec 2) : (operationOf op).code = op := by
  revert op; decide

/-- The operation of the decoded instruction is the one `op` selects. -/
theorem operation_decode (cmd : CommandWord) : (decode cmd).operation = operationOf (opField cmd) := by
  unfold decode
  split <;> simp_all [Instr.operation]

/-- Five characters as one number. -/
theorem pack_toNat (c0 c1 c2 c3 c4 : Character) :
    (packCharacters c0 c1 c2 c3 c4).toNat =
      (((c0.toNat * 2 ^ 8 + c1.toNat) * 2 ^ 8 + c2.toNat) * 2 ^ 8 + c3.toNat) * 2 ^ 8 + c4.toNat := by
  unfold packCharacters
  rw [append_toNat (c0 ++ c1 ++ c2 ++ c3) c4, append_toNat (c0 ++ c1 ++ c2) c3, append_toNat (c0 ++ c1) c2,
    append_toNat c0 c1]

/-- The character at a position, as a number. -/
theorem characterAt_toNat (w : BitVec 40) (p : Nat) :
    (characterAt w p).toNat = w.toNat / 2 ^ (32 - 8 * p) % 2 ^ 8 := extract_toNat _ _ _

/-- The characters of a packed word, in order. -/
@[simp] theorem characterAt_pack (c0 c1 c2 c3 c4 : Character) :
    characterAt (packCharacters c0 c1 c2 c3 c4) 0 = c0 ∧ characterAt (packCharacters c0 c1 c2 c3 c4) 1 = c1 ∧
    characterAt (packCharacters c0 c1 c2 c3 c4) 2 = c2 ∧ characterAt (packCharacters c0 c1 c2 c3 c4) 3 = c3 ∧
    characterAt (packCharacters c0 c1 c2 c3 c4) 4 = c4 := by
  have := c0.isLt; have := c1.isLt; have := c2.isLt; have := c3.isLt; have := c4.isLt
  refine ⟨?_, ?_, ?_, ?_, ?_⟩ <;> apply BitVec.eq_of_toNat_eq <;> rw [characterAt_toNat, pack_toNat] <;> omega

/-- A word of 40 bits is its five characters. -/
theorem pack_characterAt (w : BitVec 40) :
    packCharacters (characterAt w 0) (characterAt w 1) (characterAt w 2) (characterAt w 3) (characterAt w 4) = w := by
  have := w.isLt
  apply BitVec.eq_of_toNat_eq
  simp only [pack_toNat, characterAt_toNat]
  omega

end Sys2Proof
end

