-- ==== Sys2Proof/Laws/Flags.lean ====
section
/-! SUPPORT. The fields of a STATUS byte that an operation writes. -/

namespace Sys2Proof.Machine

@[simp] theorem statusDone_statusByte (e : Bool) (c : Cause) (p : BitVec 3) :
    statusDone (statusByte e c p) = true := by
  revert p; cases e <;> cases c <;> decide

@[simp] theorem statusErr_statusByte (e : Bool) (c : Cause) (p : BitVec 3) :
    statusErr (statusByte e c p) = e := by
  revert p; cases e <;> cases c <;> decide

@[simp] theorem statusCause_statusByte (e : Bool) (c : Cause) (p : BitVec 3) :
    statusCause (statusByte e c p) = c.code := by
  revert p; cases e <;> cases c <;> decide

@[simp] theorem statusEpos_statusByte (e : Bool) (c : Cause) (p : BitVec 3) :
    statusEpos (statusByte e c p) = p := by
  revert p; cases e <;> cases c <;> decide

@[simp] theorem statusByte_bit7 (e : Bool) (c : Cause) (p : BitVec 3) :
    (statusByte e c p).getLsbD 7 = false := by
  revert p; cases e <;> cases c <;> decide

/-- STATUS after a success is 0x01. -/
theorem statusByte_success : statusByte false .none 0 = 0x01#8 := by decide

/-- A read of a byte that an operation wrote returns that byte. -/
@[simp] theorem hardwiredStatus_statusByte (e : Bool) (c : Cause) (p : BitVec 3) :
    hardwiredStatus (statusByte e c p) = statusByte e c p := by
  revert p; cases e <;> cases c <;> decide

end Sys2Proof.Machine
end

