-- ==== Sys2Proof/Laws/Rom.lean ====
section
/-! SUPPORT. The two ROMs invert each other. -/

namespace Sys2Proof.Machine

/-- No symbol stands at two indices. -/
theorem symbolAt_injective : ∀ d e : Digit, symbolAt d = symbolAt e → d = e := by
  have h : alphabet.Nodup := by decide
  intro d e hde
  exact Fin.ext ((List.Nodup.getElem_inj_iff h).mp hde)

/-- The index of a symbol is found again. -/
theorem dmap_symbolAt (d : Digit) : dmap (symbolAt d) = some d := by
  revert d; decide

/-- A digit that DMAP answers is one whose symbol was asked for. -/
theorem symbolAt_of_dmap {c : Character} {d : Digit} (h : dmap c = some d) : symbolAt d = c := by
  unfold dmap at h
  rw [Option.map_eq_some_iff] at h
  obtain ⟨i, hi, rfl⟩ := h
  rw [List.finIdxOf?_eq_some_iff] at hi
  exact hi.1

/-- A character with no digit is no symbol. -/
theorem symbolAt_ne_of_dmap_none {c : Character} (h : dmap c = none) (d : Digit) : symbolAt d ≠ c := by
  rintro rfl
  rw [dmap_symbolAt] at h
  cases h

/-- The ROM read of a symbol, as a list read. -/
theorem getElem?_alphabet (d : Digit) : alphabet[d.val]? = some (symbolAt d) :=
  List.getElem?_eq_getElem _

/-- The characters of the alphabet are the symbols of the digits. -/
theorem mem_alphabet_iff (c : Character) : c ∈ alphabet ↔ ∃ d, symbolAt d = c := by
  rw [List.mem_iff_getElem]
  constructor
  · rintro ⟨n, hn, rfl⟩
    exact ⟨⟨n, by rwa [alphabet_length] at hn⟩, rfl⟩
  · rintro ⟨d, rfl⟩
    exact ⟨d.val, by rw [alphabet_length]; exact d.isLt, rfl⟩

/-- DMAP answers INVALID exactly outside the alphabet. -/
theorem dmap_eq_none_iff_not_mem (c : Character) : dmap c = none ↔ c ∉ alphabet := by
  rw [mem_alphabet_iff]
  constructor
  · rintro h ⟨d, hd⟩
    exact symbolAt_ne_of_dmap_none h d hd
  · intro h
    cases hd : dmap c with
    | none => rfl
    | some d => exact absurd ⟨d, symbolAt_of_dmap hd⟩ h

/-- The DMAP entry of a symbol. -/
theorem dmapEntry_symbolAt (d : Digit) : dmapEntry (symbolAt d) = 1#1 ++ BitVec.ofNat 7 d.val := by
  simp [dmapEntry, dmap_symbolAt]

end Sys2Proof.Machine
end

