-- ==== Sys2Proof/Laws/Operands.lean ====
section
/-! SUPPORT. What the operand readers answer. -/

namespace Sys2Proof.Machine

/-- The digits are read when every character has one. -/
theorem readDigits_map_symbolAt (ds : List Digit) (pos : Nat) : readDigits pos (ds.map symbolAt) = .ok ds := by
  induction ds generalizing pos with
  | nil => rfl
  | cons d ds ih => simp [readDigits, dmap_symbolAt, ih]

/-- What a successful read says: the characters are the digits' symbols. -/
theorem eq_map_symbolAt_of_readDigits {cs : List Character} {pos : Nat} {ds : List Digit}
    (h : readDigits pos cs = .ok ds) : cs = ds.map symbolAt := by
  induction cs generalizing pos ds with
  | nil => simp [readDigits] at h; simp [← h]
  | cons c cs ih =>
    unfold readDigits at h
    split at h
    · cases h
    · next d hd =>
      split at h
      · cases h
      · next ds' hds =>
        cases h
        simp [symbolAt_of_dmap hd, ih hds]

/-- What a failed read says: `p` is the position of the leftmost character that has no digit. -/
theorem leftmost_of_readDigits_error {cs : List Character} {pos p : Nat} (h : readDigits pos cs = .error p) :
    ∃ k, p = pos + k ∧ (∃ c, cs[k]? = some c ∧ dmap c = none) ∧
      ∀ q, q < k → ∃ c d, cs[q]? = some c ∧ dmap c = some d := by
  induction cs generalizing pos with
  | nil => cases h
  | cons c cs ih =>
    unfold readDigits at h
    split at h
    · next hc =>
      cases h
      exact ⟨0, rfl, ⟨c, rfl, hc⟩, fun q hq => absurd hq (Nat.not_lt_zero q)⟩
    · next d hd =>
      split at h
      · next p' hp =>
        cases h
        obtain ⟨k, rfl, ⟨c', hc', hn⟩, hlt⟩ := ih hp
        refine ⟨k + 1, by omega, ⟨c', by simpa using hc', hn⟩, ?_⟩
        rintro (_ | q) hq
        · exact ⟨c, d, rfl, hd⟩
        · simpa using hlt q (by omega)
      · cases h

/-- Five characters are the symbols of five digits, or one of them is the leftmost that is no symbol. -/
theorem readDigits_five_cases (c0 c1 c2 c3 c4 : Character) :
    (∃ p c, readDigits 0 [c0, c1, c2, c3, c4] = .error p ∧ p < 5 ∧ [c0, c1, c2, c3, c4][p]? = some c ∧
      c ∉ alphabet ∧ ∀ q, q < p → ∃ a, [c0, c1, c2, c3, c4][q]? = some a ∧ a ∈ alphabet) ∨
    ∃ d0 d1 d2 d3 d4, [c0, c1, c2, c3, c4] = [d0, d1, d2, d3, d4].map symbolAt ∧
      readDigits 0 [c0, c1, c2, c3, c4] = .ok [d0, d1, d2, d3, d4] := by
  cases hr : readDigits 0 [c0, c1, c2, c3, c4] with
  | error p =>
    obtain ⟨k, hk, ⟨c, hc, hn⟩, hq⟩ := leftmost_of_readDigits_error hr
    obtain rfl : p = k := by omega
    refine .inl ⟨p, c, rfl, by simpa using (List.getElem?_eq_some_iff.mp hc).1, hc,
      (dmap_eq_none_iff_not_mem c).mp hn, fun q hqp => ?_⟩
    obtain ⟨a, d, ha, hd⟩ := hq q hqp
    exact ⟨a, ha, (mem_alphabet_iff a).mpr ⟨d, symbolAt_of_dmap hd⟩⟩
  | ok ds =>
    have hcs := eq_map_symbolAt_of_readDigits hr
    have hl : ds.length = 5 := by simpa using (congrArg List.length hcs).symm
    match ds, hl with
    | [d0, d1, d2, d3, d4], _ => exact .inr ⟨d0, d1, d2, d3, d4, hcs, rfl⟩

/-- The Horner sum of five digits, written out. -/
theorem horner_five (d0 d1 d2 d3 d4 : Digit) :
    horner [d0, d1, d2, d3, d4] =
      (((d0.val * 85 + d1.val) * 85 + d2.val) * 85 + d3.val) * 85 + d4.val := by
  simp [horner]

/-- The value of five digits fits the 33-bit accumulator. -/
theorem horner_five_lt (d0 d1 d2 d3 d4 : Digit) : horner [d0, d1, d2, d3, d4] < 2 ^ 33 := by
  rw [horner_five]; omega

/-- The digits of V from the most significant put V together again. -/
theorem horner_digits (v : BlockValue) :
    horner [digit v 4, digit v 3, digit v 2, digit v 1, digit v 0] = v.toNat := by
  have := v.isLt
  rw [horner_five]
  simp only [digit]
  omega

end Sys2Proof.Machine
end

