-- ==== Sys2Proof/Laws/State.lean ====
section
/-! SUPPORT. One lemma per field per update of State. -/

namespace Sys2Proof.Machine

@[simp] theorem State.complete_config (s : State) (v : ResultWord) : (s.complete v).config = s.config := rfl
@[simp] theorem State.complete_result (s : State) (v : ResultWord) : (s.complete v).result = some v := rfl
@[simp] theorem State.complete_status (s : State) (v : ResultWord) :
    (s.complete v).status = statusByte false .none 0 := rfl
@[simp] theorem State.complete_port (s : State) (v : ResultWord) : (s.complete v).port = s.port := rfl
@[simp] theorem State.complete_readings (s : State) (v : ResultWord) : (s.complete v).readings = s.readings := rfl

@[simp] theorem State.raiseInvalidInput_config (s : State) (c : Cause) (p : BitVec 3) :
    (s.raiseInvalidInput c p).config = s.config := rfl
@[simp] theorem State.raiseInvalidInput_result (s : State) (c : Cause) (p : BitVec 3) :
    (s.raiseInvalidInput c p).result = some 0 := rfl
@[simp] theorem State.raiseInvalidInput_status (s : State) (c : Cause) (p : BitVec 3) :
    (s.raiseInvalidInput c p).status = statusByte true c p := rfl
@[simp] theorem State.raiseInvalidInput_port (s : State) (c : Cause) (p : BitVec 3) :
    (s.raiseInvalidInput c p).port = s.port := rfl
@[simp] theorem State.raiseInvalidInput_readings (s : State) (c : Cause) (p : BitVec 3) :
    (s.raiseInvalidInput c p).readings = s.readings := rfl

@[simp] theorem State.applyReset_config (s : State) : s.applyReset.config = s.config := rfl
@[simp] theorem State.applyReset_result (s : State) : s.applyReset.result = none := rfl
@[simp] theorem State.applyReset_status (s : State) : s.applyReset.status = 0x00#8 := rfl
@[simp] theorem State.applyReset_port (s : State) : s.applyReset.port = s.port := rfl
@[simp] theorem State.applyReset_readings (s : State) : s.applyReset.readings = s.readings := rfl

@[simp] theorem State.note_config (s : State) (r : Reading) : (s.note r).config = s.config := rfl
@[simp] theorem State.note_result (s : State) (r : Reading) : (s.note r).result = s.result := rfl
@[simp] theorem State.note_status (s : State) (r : Reading) : (s.note r).status = s.status := rfl
@[simp] theorem State.note_port (s : State) (r : Reading) : (s.note r).port = s.port := rfl
@[simp] theorem State.note_readings (s : State) (r : Reading) : (s.note r).readings = s.readings ++ [r] := rfl

@[simp] theorem State.present_config (s : State) (a : HostAction) : (s.present a).config = s.config := rfl
@[simp] theorem State.present_result (s : State) (a : HostAction) : (s.present a).result = s.result := rfl
@[simp] theorem State.present_status (s : State) (a : HostAction) : (s.present a).status = s.status := rfl
@[simp] theorem State.present_port (s : State) (a : HostAction) : (s.present a).port = a :: s.port := rfl
@[simp] theorem State.present_readings (s : State) (a : HostAction) : (s.present a).readings = s.readings := rfl

end Sys2Proof.Machine
end

