-- ==== Sys2Proof/Laws/Exec.lean ====
section
/-! SUPPORT. What an instruction and a step can do, said once. -/

namespace Sys2Proof.Machine

/-- An operation ends in one of two ways: it completes with a value, or it raises InvalidInput. -/
theorem exec_completes_or_raises (i : Instr) (s : State) :
    (∃ v, exec i s = .next (s.complete v)) ∨
      ∃ c p, c ≠ Cause.none ∧ p.toNat ≤ 4 ∧ (c ≠ .invalidChar → p = 0#3) ∧
        exec i s = .next (s.raiseInvalidInput c p) := by
  cases i with
  | enc4 v => exact .inl ⟨_, rfl⟩
  | chk c => exact .inl ⟨_, rfl⟩
  | sym idx =>
    by_cases h : idx.toNat < 85
    · exact .inl ⟨(symbolAt ⟨idx.toNat, h⟩).setWidth 40, by simp [exec, execSym, h]⟩
    · exact .inr ⟨.range, 0#3, by decide, by decide, fun _ => rfl, by simp [exec, execSym, h]⟩
  | dec5 c0 c1 c2 c3 c4 =>
    cases hr : readDigits 0 [c0, c1, c2, c3, c4] with
    | error p =>
      obtain ⟨k, hp, ⟨c, hc, -⟩, -⟩ := leftmost_of_readDigits_error hr
      have hk : k < 5 := by
        have := (List.getElem?_eq_some_iff.mp hc).1
        simpa using this
      refine .inr ⟨.invalidChar, BitVec.ofNat 3 p, by decide, ?_, fun h => absurd rfl h, by simp [exec, execDec5, hr]⟩
      rw [BitVec.toNat_ofNat]; omega
    | ok ds =>
      by_cases h : horner ds > 0xFFFFFFFF
      · cases hp : s.config.overflowPolicy with
        | reject =>
          exact .inr ⟨.overflow, 0#3, by decide, by decide, fun _ => rfl,
            by simp [exec, execDec5, hr, State.finishDec5, h, hp]⟩
        | wrap => exact .inl ⟨BitVec.ofNat 40 (horner ds % 2 ^ 32), by simp [exec, execDec5, hr, State.finishDec5, h, hp]⟩
      · exact .inl ⟨BitVec.ofNat 40 (horner ds), by simp [exec, execDec5, hr, State.finishDec5, h]⟩

/-- The end of DEC5 on a value that fits 32 bits (R105). -/
theorem State.finishDec5_of_fits {s : State} {acc : Nat} (h : acc ≤ 0xFFFFFFFF) :
    s.finishDec5 acc = s.complete (BitVec.ofNat 40 acc) := by
  unfold State.finishDec5
  rw [if_neg (Nat.not_lt.mpr h)]

/-- The end of DEC5 on a value that overflows, under REJECT (R103). -/
theorem State.finishDec5_of_reject {s : State} {acc : Nat} (h : 0xFFFFFFFF < acc)
    (hp : s.config.overflowPolicy = .reject) : s.finishDec5 acc = s.raiseInvalidInput .overflow 0 := by
  unfold State.finishDec5
  rw [if_pos h, hp]

/-- The end of DEC5 on a value that overflows, under WRAP (R104). -/
theorem State.finishDec5_of_wrap {s : State} {acc : Nat} (h : 0xFFFFFFFF < acc)
    (hp : s.config.overflowPolicy = .wrap) : s.finishDec5 acc = s.complete (BitVec.ofNat 40 (acc % 2 ^ 32)) := by
  unfold State.finishDec5
  rw [if_pos h, hp]

/-- What DEC5 does when the five characters are the symbols of five digits. -/
theorem execDec5_symbols (d0 d1 d2 d3 d4 : Digit) (s : State) :
    execDec5 (symbolAt d0) (symbolAt d1) (symbolAt d2) (symbolAt d3) (symbolAt d4) s =
      .next (s.finishDec5 (horner [d0, d1, d2, d3, d4])) := by
  have h := readDigits_map_symbolAt [d0, d1, d2, d3, d4] 0
  simp only [List.map_cons, List.map_nil] at h
  simp [execDec5, h]

/-- Where a step that answers a next state came from: one case per action of the host, and idling. -/
theorem step_next_cases {s t : State} (h : step s = .next t) :
    (s.port = [] ∧ t = s) ∨
    (∃ cmd rest, s.port = .issue cmd :: rest ∧ exec (decode cmd) { s with port := rest } = .next t) ∨
    (∃ rest, s.port = .reset :: rest ∧ t = State.applyReset { s with port := rest }) ∨
    (∃ rest v, s.port = .readResult :: rest ∧ s.result = some v ∧
      t = State.note { s with port := rest } (.result v)) ∨
    (∃ rest, s.port = .readStatus :: rest ∧ t = State.note { s with port := rest } (.status s.readStatus)) := by
  unfold step at h
  split at h
  · next hp => cases h; exact .inl ⟨hp, rfl⟩
  · next cmd rest hp => exact .inr (.inl ⟨cmd, rest, hp, h⟩)
  · next rest hp => cases h; exact .inr (.inr (.inl ⟨rest, hp, rfl⟩))
  · next rest hp =>
    unfold State.takeReadResult State.readResult at h
    cases hr : s.result with
    | none => simp [hr] at h
    | some v =>
      simp only [hr] at h
      cases h
      exact .inr (.inr (.inr (.inl ⟨rest, v, hp, rfl, rfl⟩)))
  · next rest hp => cases h; exact .inr (.inr (.inr (.inr ⟨rest, hp, rfl⟩)))

end Sys2Proof.Machine
end

