-- ==== Sys2Proof/Laws/Host.lean ====
section
/-! SUPPORT. Small lemmas about runs, banks and host procedures. -/

namespace Sys2Proof.Machine

@[simp] theorem run_zero (s : State) : run 0 s = .next s := rfl

theorem run_succ (n : Nat) (s : State) :
    run (n + 1) s = match step s with
      | .next t => run n t
      | .fault f => .fault f
      | .refused r => .refused r := rfl

/-- One step and then the rest, for any machine of the host's. -/
theorem core_run_succ (M : Host.Core) (n : Nat) (s : M.State) :
    M.run (n + 1) s = match M.step s with
      | .next t => M.run n t
      | .fault f => .fault f
      | .refused r => .refused r := rfl

/-- The run is the host's own run of `core`. -/
theorem run_eq_core_run (n : Nat) (s : State) : run n s = Host.Core.run Sys2Proof.core n s := by
  induction n generalizing s with
  | zero => rfl
  | succ n ih =>
    refine Eq.trans ?_ (core_run_succ core n s).symm
    have hs : Sys2Proof.core.step s = step s := rfl
    rw [hs]
    unfold run
    cases step s with
    | next t => exact ih t
    | fault f => rfl
    | refused r => rfl

@[simp] theorem stepsAlone_zero (o : StepOutcome) : stepsAlone 0 o = o := rfl
@[simp] theorem stepsAlone_succ (n : Nat) (o : StepOutcome) :
    stepsAlone (n + 1) o = stepsAlone n (stepOutcome o) := rfl
@[simp] theorem bankRun_nil (bank : List StepOutcome) : bankRun [] bank = bank := rfl
@[simp] theorem bankRun_cons (k : Nat) (ks : List Nat) (bank : List StepOutcome) :
    bankRun (k :: ks) bank = bankRun ks (bankStep bank k) := rfl

@[simp] theorem HostResult.returns_bind {α β : Type} (a : α) (h : Session) (f : α → Session → HostResult β) :
    (HostResult.returns a h).bind f = f a h := rfl
@[simp] theorem HostResult.fails_bind {α β : Type} (e : InvalidInput) (h : Session)
    (f : α → Session → HostResult β) : (HostResult.fails e h).bind f = .fails e h := rfl
@[simp] theorem HostResult.stops_bind {α β : Type} (r : Fault ⊕ Refusal) (f : α → Session → HostResult β) :
    (HostResult.stops r).bind f = .stops r := rfl

/-- A step that takes the command just presented runs it on the block as it was. -/
theorem step_present_issue (s : State) (cmd : CommandWord) :
    step (s.present (.issue cmd)) = exec (decode cmd) s := rfl

/-- What `issue` returns when the command completes. -/
theorem issue_of_complete {cmd : CommandWord} {h : Session} {v : ResultWord}
    (hx : exec (decode cmd) h.block = .next (h.block.complete v)) :
    issue cmd h =
      .returns { result := v, status := statusByte false .none 0 }
        { block := h.block.complete v, issued := h.issued ++ [cmd] } := by
  simp [issue, step_present_issue, hx, State.readResult, State.readStatus]

/-- What `issue` returns when the command raises InvalidInput. -/
theorem issue_of_raise {cmd : CommandWord} {h : Session} {c : Cause} {p : BitVec 3}
    (hx : exec (decode cmd) h.block = .next (h.block.raiseInvalidInput c p)) :
    issue cmd h =
      .returns { result := 0, status := statusByte true c p }
        { block := h.block.raiseInvalidInput c p, issued := h.issued ++ [cmd] } := by
  simp [issue, step_present_issue, hx, State.readResult, State.readStatus]

end Sys2Proof.Machine
end

