-- ==== Sys2Proof/Laws/PerInstr.lean ====
section
/-! SUPPORT. Laws stated of every instruction, one lemma per constructor. -/

namespace Sys2Proof.Laws

/-- The encoding of an instruction matches its row of the opcode table: `cmd AND mask = match`
(30_encoding.md R62). -/
def MatchesTableRow.Statement (i : Instr) : Prop :=
  encode i &&& 0x30000000000#42 =
    match i with
    | .enc4 _ => 0x00000000000#42
    | .dec5 _ _ _ _ _ => 0x10000000000#42
    | .chk _ => 0x20000000000#42
    | .sym _ => 0x30000000000#42

/-- Masking a word put together from its fields leaves `op`, with zeros below. -/
theorem mask_append (op : BitVec 2) (din : Payload) :
    (op ++ din : BitVec (2 + 40)) &&& 0x30000000000#42 = (op ++ 0#40 : BitVec (2 + 40)) := by
  have hmask : (0x30000000000#42 : CommandWord) = (0b11#2 ++ 0#40 : BitVec (2 + 40)) := by decide
  rw [hmask, BitVec.and_append]
  have hop : op &&& 0b11#2 = op := by revert op; decide
  simp [hop]

theorem MatchesTableRow.enc4 (v : BlockValue) : MatchesTableRow.Statement (.enc4 v) :=
  (mask_append _ _).trans (show (0b00#2 ++ 0#40 : CommandWord) = 0x00000000000#42 by decide)

theorem MatchesTableRow.dec5 (c0 c1 c2 c3 c4 : Character) : MatchesTableRow.Statement (.dec5 c0 c1 c2 c3 c4) :=
  (mask_append _ _).trans (show (0b01#2 ++ 0#40 : CommandWord) = 0x10000000000#42 by decide)

theorem MatchesTableRow.chk (c : Character) : MatchesTableRow.Statement (.chk c) :=
  (mask_append _ _).trans (show (0b10#2 ++ 0#40 : CommandWord) = 0x20000000000#42 by decide)

theorem MatchesTableRow.sym (i : SymbolIndex) : MatchesTableRow.Statement (.sym i) :=
  (mask_append _ _).trans (show (0b11#2 ++ 0#40 : CommandWord) = 0x30000000000#42 by decide)

end Sys2Proof.Laws
end

