-- ==== Sys2Proof/Tests/Slice0.lean ====
section
/-! SUPPORT. Small tests, their expected values from 95_test_vectors.md and the rules' own examples, and one
witness for the hypotheses of every statement that has some. -/

namespace Sys2Proof.Tests

open Sys2Proof.Machine

/-- The response in an outcome. -/
def responseOf (o : StepOutcome) : Option (Option ResultWord × StatusByte) :=
  match o with
  | .next s => some (s.result, s.status)
  | _ => none

/-- The response to one command word on a block just reset. -/
def after (c : Config) (cmd : CommandWord) : Option (Option ResultWord × StatusByte) :=
  responseOf (step ((State.resetWith c).present (.issue cmd)))

/-- A block built with WRAP. -/
def wrapping : Config := { overflowPolicy := .wrap }

/-- A block just reset, with these actions in its port. -/
def withPort (c : Config) (port : List HostAction) : State := { State.resetWith c with port := port }

/-- A host that has done nothing yet. -/
def newSession : Session := { block := State.reset, issued := [] }

/-- The value a procedure returned and the number of commands it issued. -/
def returned {α : Type} (r : HostResult α) : Option (α × Nat) :=
  match r with
  | .returns a h => some (a, h.issued.length)
  | _ => none

/-- The number of commands a procedure had issued when it failed. -/
def failedAfter {α : Type} (r : HostResult α) : Option Nat :=
  match r with
  | .fails _ h => some h.issued.length
  | _ => none

/-- The codes of a text. -/
def codes (text : String) : HostString := text.toList.map Char.toNat

/-! ### Well-formedness: one refused term per check (R70) -/

theorem test_wellFormed_refuses_wide_block : WrittenCommand.wellFormed (.enc4Word (2 ^ 32)) = false := by decide
theorem test_wellFormed_refuses_wide_byte : WrittenCommand.wellFormed (.enc4Bytes 0 0 256 0) = false := by decide
theorem test_wellFormed_refuses_four_characters :
    WrittenCommand.wellFormed (.dec5Text [0x30, 0x30, 0x30, 0x30]) = false := by decide
theorem test_wellFormed_refuses_wide_character :
    WrittenCommand.wellFormed (.dec5Text [0x30, 0x30, 0x130, 0x30, 0x30]) = false := by decide
theorem test_wellFormed_refuses_wide_payload : WrittenCommand.wellFormed (.dec5Word (2 ^ 40)) = false := by decide
theorem test_wellFormed_refuses_wide_lookup : WrittenCommand.wellFormed (.chk 256) = false := by decide
theorem test_wellFormed_refuses_index_128 : WrittenCommand.wellFormed (.sym 128) = false := by decide
theorem test_wellFormed_accepts_index_127 : WrittenCommand.wellFormed (.sym 127) = true := by decide

/-! ### The alphabet against the string of R31 (its two braces by their codes) -/

theorem test_alphabet_is_the_string_of_R31 :
    alphabet.map BitVec.toNat =
      codes "0123456789" ++ codes "abcdefghijklmnopqrstuvwxyz" ++ codes "ABCDEFGHIJKLMNOPQRSTUVWXYZ" ++
        codes ".-:+=^!/*?&<>()[]" ++ [0x7B, 0x7D] ++ codes "@%$#" := by decide

/-! ### Decoding: words written out bit by bit from R62 to R66, and the encoder (R70) -/

theorem test_decode_enc4 :
    decode 0b00_11111111_00000001_00000010_00000011_00000100#42 = .enc4 0x01020304#32 := by decide
theorem test_decode_dec5 :
    decode 0b01_00110000_01110010_01001010_01110101_01100001#42 = .dec5 0x30#8 0x72#8 0x4A#8 0x75#8 0x61#8 := by decide
theorem test_decode_chk :
    decode 0b10_10101011_11001101_11101111_00010010_01001000#42 = .chk 0x48#8 := by decide
theorem test_decode_sym :
    decode 0b11_00000000_00000000_00000000_00000000_11010100#42 = .sym 84#7 := by decide
theorem test_encode_dec5_hello : encode (.dec5 0x48#8 0x65#8 0x6C#8 0x6C#8 0x6F#8) = 0x148656C6C6F#42 := by decide
theorem test_encode_sym_43 : encode (.sym 43#7) = 0x3000000002B#42 := by decide
theorem test_decode_refuses_more_than_42_bits : decodeNumber (2 ^ 42) = .error .widerThan42Bits := by rfl
theorem test_decode_the_widest_word : decodeTableWord 48 (2 ^ 42 - 1) = some (.sym 127#7) := by decide

/-! ### One step of each instruction (95_test_vectors.md, section 2) -/

theorem test_enc4_deadbeef : after Config.default 0x000DEADBEEF#42 = some (some 0x3F4D734A58#40, 0x01#8) := by decide
theorem test_enc4_second_carry : after Config.default 0x00000001C39#42 = some (some 0x3030313030#40, 0x01#8) := by decide
theorem test_dec5_overflow_rejected : after Config.default 0x1256E536430#42 = some (some 0#40, 0x0B#8) := by decide
theorem test_dec5_overflow_wrapped : after wrapping 0x1256E536430#42 = some (some 0x54#40, 0x01#8) := by decide
theorem test_chk_keeps_bit7_of_the_code : after Config.default 0x200000000B0#42 = some (some 0#40, 0x01#8) := by decide
theorem test_chk_right_brace : after Config.default 0x2000000007D#42 = some (some 0xD0#40, 0x01#8) := by decide
theorem test_sym_ignores_bit7 : after Config.default 0x30000000085#42 = some (some 0x35#40, 0x01#8) := by decide
theorem test_sym_100_is_out_of_range : after Config.default 0x30000000064#42 = some (some 0#40, 0x0F#8) := by decide

/-! ### Reset and the model fault (95_test_vectors.md, section 2.5) -/

theorem test_read_result_after_reset_faults :
    step (withPort Config.default [.readResult]) = .fault .resultHoldsNoValue := by rfl
theorem test_reset_clears_an_error :
    responseOf (run 2 (withPort Config.default [.issue 0x30000000055#42, .reset])) = some (none, 0x00#8) := by decide
theorem test_withFetchWord_runs_first :
    responseOf (step (State.reset.withFetchWord 48 0x148656C226F)) = some (some 0#40, 0x37#8) := by decide
theorem test_idle_step : step State.reset = .next State.reset := by rfl

/-! ### The assembler (30_encoding.md R70) -/

theorem test_assemble_dec5_text :
    assembleLine "DEC5 \"Hel\\\"o\" ; a quote".toList = .command 0x148656C226F#42 := by decide
theorem test_assemble_dec5_escape :
    assembleLine "DEC5 \"H\\x80l\\\"o\"".toList = .command 0x148806C226F#42 := by decide
theorem test_assemble_enc4_bytes :
    assembleLine "ENC4 0x86, 0x4F, 0xD2, 0x6F".toList = .command 0x000864FD26F#42 := by decide
theorem test_assemble_chk_quote : assembleLine "CHK '\"'".toList = .command 0x20000000022#42 := by decide
theorem test_assemble_sym : assembleLine "SYM 43".toList = .command 0x3000000002B#42 := by decide
theorem test_assemble_refuses_sym_128 : assembleLine "SYM 128".toList = .malformed := by decide
theorem test_assemble_comment : assembleLine "  ; only a comment".toList = .empty := by decide
theorem test_command_text : commandText 0x148656C6C6F#42 = "0x148656C6C6F".toList := by decide

/-! ### Host procedures (95_test_vectors.md, section 2.6 and P3) and instances -/

theorem test_encode_one_byte : returned (encodeBuffer [0x86#8] newSession) = some (codes "H5.hN", 1) := by decide
theorem test_decode_to_three_bytes :
    returned (decodeStringTo (codes "Helj$") 3 newSession) = some ([0x86#8, 0x4F#8, 0xD2#8], 1) := by decide
theorem test_decode_three_characters_fails : failedAfter (decodeString (codes "abc") newSession) = some 0 := by rfl
theorem test_decode_wide_character_fails :
    failedAfter (decodeString (codes "Hello" ++ [0x130] ++ codes "orld") newSession) = some 0 := by rfl
theorem test_decode_error_in_second_group :
    failedAfter (decodeString (codes "HelloWor\"d") newSession) = some 2 := by rfl
theorem test_decode_out_of_bounds : failedAfter (decodeStringTo (codes "0rJua1POJ5") 9 newSession) = some 2 := by rfl
theorem test_encode_uuid_first_group :
    (returned (encodeUuid { msb := 0x0123456789ABCDEF#64, lsb := 0xFEDCBA9876543210#64 } newSession)).map
      (fun r => (r.1.take 5, r.1.length, r.2)) = some (codes "0v73C", 20, 4) := by decide
theorem test_bank_steps_one_instance :
    (bankRun [1] [.next (withPort Config.default [.reset]), .next (withPort wrapping [.issue 0x20000000048#42])]).map
      responseOf = [some (none, 0x00#8), some (some 0xAB#40, 0x01#8)] := by decide

/-! ### Witnesses: concrete states and operands that meet the hypotheses of each statement -/

/-- A block that has completed `CHK 'H'`, with these actions in its port. -/
def afterChk (port : List HostAction) : State :=
  { config := Config.default, result := some 0xAB#40, status := 0x01#8, port := port, readings := [] }

theorem witness_ResetStepClearsStatusAndResult : (afterChk [.reset, .readStatus]).port = .reset :: [.readStatus] := by
  rfl

theorem witness_StepRunsTheDecodedCommand :
    (afterChk [.issue 0x3000000002B#42]).port = .issue 0x3000000002B#42 :: [] ∧ (afterChk []).port = [] ∧
      2 ^ 42 - 1 < 2 ^ 42 := by decide

theorem witness_OnlyFaultIsReadingResultWithoutValue :
    step (withPort Config.default [.readResult]) = .fault .resultHoldsNoValue ∧
      (withPort Config.default [.readResult]).result = none ∧
      (afterChk [.readResult]).Inv ∧ (afterChk [.readResult]).port = .readResult :: [] ∧
      statusDone (afterChk [.readResult]).status = true :=
  ⟨rfl, by decide, by decide, by decide, by decide⟩

theorem witness_HostReadsRegistersAndBit7IsZero :
    (afterChk [.readResult]).port = .readResult :: [] ∧ (afterChk [.readResult]).result = some 0xAB#40 ∧
      (afterChk [.readStatus]).port = .readStatus :: [] := by decide

theorem witness_ReadsHaveNoSideEffectAndCommandsRepeat :
    (afterChk [.readResult]).port = .readResult :: [] ∧
      step (afterChk [.readResult]) = .next { afterChk [] with readings := [.result 0xAB#40] } ∧
      (afterChk [.readStatus]).port = .readStatus :: [] ∧
      step (afterChk [.readStatus]) = .next { afterChk [] with readings := [.status 0x01#8] } ∧
      exec (.chk 0x48#8) State.reset = .next (afterChk []) :=
  ⟨rfl, rfl, rfl, rfl, rfl⟩

theorem witness_StepKeepsRegistersLegal :
    (withPort Config.default [.issue 0x20000000048#42]).Inv ∧
      step (withPort Config.default [.issue 0x20000000048#42]) = .next (afterChk []) :=
  ⟨by decide, rfl⟩

theorem witness_RegistersAlwaysHoldResetOrAResponse :
    (afterChk [.issue 0x20000000048#42]).HoldsAResponse ∧
      step (afterChk [.issue 0x20000000048#42]) = .next (afterChk []) :=
  ⟨.inr ⟨.chk 0x48#8, rfl⟩, rfl⟩

theorem witness_NoStepChangesTheConfiguration :
    step (withPort wrapping [.reset]) = .next (State.resetWith wrapping) ∧
      exec (.chk 0x48#8) State.reset = .next (afterChk []) :=
  ⟨rfl, rfl⟩

theorem witness_DoneIsSetByOperationsAndClearedByReset :
    exec (.chk 0x48#8) State.reset = .next (afterChk []) ∧
      statusDone (withPort Config.default [.issue 0x20000000048#42]).status = false ∧
      step (withPort Config.default [.issue 0x20000000048#42]) = .next (afterChk []) ∧
      statusDone (afterChk []).status = true ∧
      step (afterChk []) = .next (afterChk []) ∧ (∀ rest, (afterChk []).port ≠ .reset :: rest) ∧
      (afterChk [.reset]).port = .reset :: [] :=
  ⟨rfl, by decide, rfl, by decide, rfl, fun _ h => (nomatch h), rfl⟩

/-- CAUSE 1 at the boundary positions 0 and 4, 2, 3 at index 85, and 0 at index 84. -/
theorem witness_CauseAndEposSayWhyTheOperationFailed :
    responseOf (exec (.dec5 0x80#8 0x22#8 0x30#8 0x30#8 0x30#8) State.reset) = some (some 0#40, 0x07#8) ∧
      responseOf (exec (.dec5 0x48#8 0x65#8 0x6C#8 0x6C#8 0x7E#8) State.reset) = some (some 0#40, 0x47#8) ∧
      responseOf (exec (.dec5 0x25#8 0x6E#8 0x53#8 0x63#8 0x31#8) State.reset) = some (some 0#40, 0x0B#8) ∧
      responseOf (exec (.sym 85#7) State.reset) = some (some 0#40, 0x0F#8) ∧
      responseOf (exec (.sym 84#7) State.reset) = some (some 0x23#40, 0x01#8) := by decide

theorem witness_ErrorsWriteZeroResultAndNothingElse :
    exec (.sym 127#7) State.reset = .next { State.reset with result := some 0#40, status := 0x0F#8 } ∧
      statusErr 0x0F#8 = true :=
  ⟨rfl, by decide⟩

theorem witness_ResponseDependsOnCommandAndPolicyAlone :
    State.reset.config.overflowPolicy = (afterChk [.reset]).config.overflowPolicy ∧ State.reset ≠ afterChk [.reset] := by
  decide

theorem witness_Enc4EncodesEveryBlock : 0x0FF864FD26F#42 &&& 0x30000000000#42 = 0x00000000000#42 := by decide

theorem witness_BlockDigitsExistAndAreUnique :
    groupValue 82 23 54 12 0 = (0xFFFFFFFF#32 : BlockValue).toNat ∧ groupValue 0 0 0 0 0 = (0#32 : BlockValue).toNat := by
  decide

theorem witness_Enc4IsInjectiveOntoTheAcceptedGroups :
    exec (.enc4 0#32) State.reset = .next { State.reset with result := some 0x3030303030#40, status := 0x01#8 } ∧
      exec (.enc4 0#32) (afterChk []) = .next { afterChk [] with result := some 0x3030303030#40, status := 0x01#8 } ∧
      State.reset.config.overflowPolicy = .reject ∧
      DecodesWithoutError State.reset 0x3030303030#40 :=
  ⟨rfl, rfl, rfl, _, rfl, by rfl⟩

theorem witness_OutputCharactersAreValidAndJsonSafe :
    exec (.enc4 0xFFFFFFFF#32) State.reset = .next { State.reset with result := some 0x256E536330#40, status := 0x01#8 } ∧
      0 < 5 ∧ 4 < 5 ∧
      exec (.sym 84#7) State.reset = .next { State.reset with result := some 0x23#40, status := 0x01#8 } ∧
      statusErr 0x01#8 = false :=
  ⟨rfl, by decide, by decide, rfl, by decide⟩

/-- The largest value that fits: the group of `%nSc0`. -/
theorem witness_Dec5DecodesGroupsThatFit :
    alphabet[82]? = some 0x25#8 ∧ alphabet[23]? = some 0x6E#8 ∧ alphabet[54]? = some 0x53#8 ∧
      alphabet[12]? = some 0x63#8 ∧ alphabet[0]? = some 0x30#8 ∧ groupValue 82 23 54 12 0 = 0xFFFFFFFF := by decide

/-- Positions 0 and 4, with characters of the alphabet before the latter. -/
theorem witness_Dec5ReportsTheLeftmostInvalidCharacter :
    ([0x80#8, 0x22#8, 0x30#8, 0x30#8, 0x30#8][0]? = some 0x80#8 ∧ 0x80#8 ∉ alphabet) ∧
      ([0x48#8, 0x65#8, 0x6C#8, 0x6C#8, 0x7E#8][4]? = some 0x7E#8 ∧ 0x7E#8 ∉ alphabet ∧
        ∀ q, q < 4 → ∃ a, [0x48#8, 0x65#8, 0x6C#8, 0x6C#8, 0x7E#8][q]? = some a ∧ a ∈ alphabet) ∧
      0x80 ≤ (0x80#8 : Character).toNat ∧ 0x80 ≤ (0xFF#8 : Character).toNat := by decide

/-- The smallest value that overflows: the group of `%nSc1`. -/
theorem witness_Dec5RejectsOverflowUnderReject :
    State.reset.config.overflowPolicy = .reject ∧ 0xFFFFFFFF < groupValue 82 23 54 12 1 := by decide

theorem witness_Dec5WrapsOverflowUnderWrap :
    (State.resetWith wrapping).config.overflowPolicy = .wrap ∧ 0xFFFFFFFF < groupValue 84 84 84 84 84 := by decide

theorem witness_Dec5MeetsItsCornerCases :
    0x1FFFFFFFFFF#42 &&& 0x30000000000#42 = 0x10000000000#42 ∧ State.reset.config.overflowPolicy = .reject ∧
      (State.resetWith wrapping).config.overflowPolicy = .wrap := by decide

theorem witness_Dec5OfEnc4GivesTheBlockBack :
    exec (.enc4 0xFFFFFFFF#32) State.reset = .next { State.reset with result := some 0x256E536330#40, status := 0x01#8 } := by
  rfl

/-- The policy, an accepted group and the leading digits at the edges of the three ranges. -/
theorem witness_RejectAcceptsExactlyTheEncodedGroups :
    State.reset.config.overflowPolicy = .reject ∧ DecodesWithoutError State.reset 0x256E536330#40 ∧
      (81 : Digit).val ≤ 81 ∧ (82 : Digit).val = 82 ∧ 83 ≤ (83 : Digit).val :=
  ⟨rfl, ⟨_, rfl, by rfl⟩, by decide, by decide, by decide⟩

theorem witness_ChkAnswersValidityAndValue :
    0x2ABCDEF1248#42 &&& 0x30000000000#42 = 0x20000000000#42 ∧ alphabet[0]? = some 0x30#8 ∧
      alphabet[84]? = some 0x23#8 ∧ 0x22#8 ∉ alphabet ∧ 0x80 ≤ (0x80#8 : Character).toNat := by decide

theorem witness_SymAnswersTheSymbolOrRange :
    0x30000000085#42 &&& 0x30000000000#42 = 0x30000000000#42 ∧ (84#7 : SymbolIndex).toNat ≤ 84 ∧
      84 < (85#7 : SymbolIndex).toNat ∧ 84 < (127#7 : SymbolIndex).toNat := by decide

theorem witness_SymAndChkInvertEachOther : (84#7 : SymbolIndex).toNat ≤ 84 ∧ 0x7D#8 ∈ alphabet := by decide

theorem witness_AlphabetHas85DistinctPrintableSymbols : 0x21#8 ∈ alphabet ∧ 0x7D#8 ∈ alphabet := by decide

theorem witness_DmapIsTheInverseOfAlphabet : dmap 0x23#8 = some 84 ∧ dmap 0x22#8 = none := by decide

/-- Both ends of each range of the written table. -/
theorem witness_DmapMatchesTheWrittenTable :
    (0x20#8 : Character).toNat ≤ 0x20 ∧ (0x7F#8 : Character).toNat = 0x7F ∧ 0x80 ≤ (0x80#8 : Character).toNat ∧
      0x30 ≤ (0x30#8 : Character).toNat ∧ (0x39#8 : Character).toNat ≤ 0x39 ∧ 0x61 ≤ (0x61#8 : Character).toNat ∧
      (0x7A#8 : Character).toNat ≤ 0x7A ∧ 0x41 ≤ (0x41#8 : Character).toNat ∧
      (0x5A#8 : Character).toNat ≤ 0x5A := by decide

theorem witness_ExactlyOneTableRowMatchesEveryWord :
    0x148656C6C6F#42 &&& 0x30000000000#42 = 0x10000000000#42 ∧
      0x10000000000#42 ∈ [0x00000000000#42, 0x10000000000#42, 0x20000000000#42, 0x30000000000#42] := by decide

/-- Words that differ in ignored bits only, for each of the three operations that have some. -/
theorem witness_IgnoredPayloadBitsHaveNoEffect :
    (0x0FF864FD26F#42 &&& 0x30000000000#42 = 0x00000000000#42 ∧
      0x0FF864FD26F#42 &&& 0x300FFFFFFFF#42 = 0x000864FD26F#42 &&& 0x300FFFFFFFF#42) ∧
    (0x2ABCDEF1248#42 &&& 0x30000000000#42 = 0x20000000000#42 ∧
      0x2ABCDEF1248#42 &&& 0x300000000FF#42 = 0x20000000048#42 &&& 0x300000000FF#42) ∧
    (0x30000000085#42 &&& 0x30000000000#42 = 0x30000000000#42 ∧
      0x30000000085#42 &&& 0x3000000007F#42 = 0x30000000005#42 &&& 0x3000000007F#42) ∧
    step (afterChk [.issue 0x2ABCDEF1248#42]) = .next (afterChk []) :=
  ⟨by decide, by decide, by decide, rfl⟩

/-- An ENC4 with its RESULT, a group that fits (`"Hello"`, W1), and the group of five 84s, which wraps. -/
theorem witness_BlocksAreBigEndianBothWays :
    exec (.enc4 0x864FD26F#32) State.reset =
        .next { State.reset with result := some 0x48656C6C6F#40, status := 0x01#8 } ∧
      ((0x864FD26F#32).toNat = groupValue 43 14 21 21 24 % 2 ^ 32 ∧ groupValue 43 14 21 21 24 ≤ 0xFFFFFFFF) ∧
      ((0x08780EC4#32).toNat = groupValue 84 84 84 84 84 % 2 ^ 32 ∧
        ({ State.reset with config := { overflowPolicy := .wrap } } : State).config.overflowPolicy = .wrap) :=
  ⟨rfl, by decide, by decide⟩

theorem witness_WrittenFormsAssembleToTheirWords : 0 ≤ 127 ∧ 127 ≤ 127 := by decide

theorem witness_DisciplinedHostNeverFaults :
    (withPort Config.default [.readStatus, .issue 0x30000000055#42, .readResult, .reset, .readStatus]).Inv ∧
      readsOnlyWhenDone (statusDone (withPort Config.default []).status)
        [.readStatus, .issue 0x30000000055#42, .readResult, .reset, .readStatus] = true ∧
      readsOnlyWhenDone (statusDone (withPort Config.default []).status) [.readResult] = false := by decide

theorem witness_EncodeBufferIssuesOneEnc4PerGroup : 0 < ([0x86#8].length + 3) / 4 := by decide

/-- A group response without an error, one with an error, and the two failures before any command. -/
theorem witness_DecodeStringChecksThenDecodesGroups :
    (∃ c ∈ [0x130, 0x30, 0x30, 0x30, 0x30], 0xFF < c) ∧ (codes "abc").length % 5 ≠ 0 ∧
      (∀ c ∈ codes "Hello", c ≤ 0xFF) ∧ (codes "Hello").length % 5 = 0 ∧
      IsGroupResponse Config.default (codes "Hello") 0 { result := 0x00864FD26F#40, status := 0x01#8 } ∧
      (∀ c ∈ codes "Wor\"d", c ≤ 0xFF) ∧ (codes "Wor\"d").length % 5 = 0 ∧
      IsGroupResponse Config.default (codes "Wor\"d") 0 { result := 0#40, status := 0x37#8 } ∧
      statusErr 0x37#8 = true :=
  ⟨by decide, by decide, by decide, by decide,
    ⟨0x48#8, 0x65#8, 0x6C#8, 0x6C#8, 0x6F#8, rfl, rfl, rfl, rfl, rfl, State.reset, _, rfl, rfl, rfl, rfl⟩,
    by decide, by decide,
    ⟨0x57#8, 0x6F#8, 0x72#8, 0x22#8, 0x64#8, rfl, rfl, rfl, rfl, rfl, State.reset, _, rfl, rfl, rfl, rfl⟩, by decide⟩

theorem witness_DecodeStringToTruncatesOrFails :
    (∃ e h', decodeString (codes "abc") newSession = .fails e h') ∧
      ∃ full h', decodeString (codes "Hello") newSession = .returns full h' ∧ 4 ≤ full.length ∧ full.length < 5 :=
  ⟨⟨_, _, rfl⟩, _, _, rfl, by decide, by decide⟩

theorem witness_DecodeUuidNeedsTwentyValidCharacters :
    (codes "abc").length ≠ 20 ∧ 0x22 ∈ codes "0v73C\"" ∧ (∀ a ∈ alphabet, a.toNat ≠ 0x22) ∧
      ∃ u h', decodeUuid (List.replicate 20 0x30) newSession = .returns u h' :=
  ⟨by decide, by decide, by decide, _, _, rfl⟩

theorem witness_HostFailuresAreInvalidInputWithThePhrase :
    (∃ e h', decodeString (codes "abc") newSession = .fails e h') ∧
      (∃ e h', decodeStringTo (codes "Hello") 5 newSession = .fails e h') ∧
      ∃ e h', decodeUuid (codes "Hello") newSession = .fails e h' :=
  ⟨⟨_, _, rfl⟩, ⟨_, _, rfl⟩, _, _, rfl⟩

end Sys2Proof.Tests
end

section
/-! PROOF. The response of a command (00_scope.md R14): it depends on the command and on OVERFLOW_POLICY alone,
so a command repeats itself, and every step keeps the registers at what reset leaves or at a response. -/

namespace Sys2Proof.Machine

/-- The block after it has answered with RESULT `r` and STATUS `b`: nothing else changes (00_scope.md R14).
`State.complete` and `State.raiseInvalidInput` are of this form by definition. -/
def State.respond (s : State) (r : ResultWord) (b : StatusByte) : State :=
  { s with result := some r, status := b }

@[simp] theorem State.respond_config (s : State) (r : ResultWord) (b : StatusByte) :
    (s.respond r b).config = s.config := rfl
@[simp] theorem State.respond_result (s : State) (r : ResultWord) (b : StatusByte) :
    (s.respond r b).result = some r := rfl
@[simp] theorem State.respond_status (s : State) (r : ResultWord) (b : StatusByte) :
    (s.respond r b).status = b := rfl
@[simp] theorem State.respond_port (s : State) (r : ResultWord) (b : StatusByte) :
    (s.respond r b).port = s.port := rfl
@[simp] theorem State.respond_readings (s : State) (r : ResultWord) (b : StatusByte) :
    (s.respond r b).readings = s.readings := rfl

/-- To answer with what the registers hold already changes nothing. -/
theorem State.respond_eq_self {s : State} {r : ResultWord} {b : StatusByte} (hr : s.result = some r)
    (hb : s.status = b) : s.respond r b = s := by
  subst hb
  unfold State.respond
  rw [← hr]

/-- The end of DEC5 is a response to the value and the policy (R103 to R105). -/
theorem State.finishDec5_same_response {s s' : State}
    (hp : s.config.overflowPolicy = s'.config.overflowPolicy) (acc : Nat) :
    ∃ r b, s.finishDec5 acc = s.respond r b ∧ s'.finishDec5 acc = s'.respond r b := by
  obtain hfits | hover := le_or_gt acc 0xFFFFFFFF
  · exact ⟨_, _, finishDec5_of_fits hfits, finishDec5_of_fits hfits⟩
  · cases hs : s.config.overflowPolicy with
    | reject => exact ⟨_, _, finishDec5_of_reject hover hs, finishDec5_of_reject hover (hp ▸ hs)⟩
    | wrap => exact ⟨_, _, finishDec5_of_wrap hover hs, finishDec5_of_wrap hover (hp ▸ hs)⟩

theorem execDec5_same_response {s s' : State} (hp : s.config.overflowPolicy = s'.config.overflowPolicy)
    (c0 c1 c2 c3 c4 : Character) :
    ∃ r b, execDec5 c0 c1 c2 c3 c4 s = .next (s.respond r b) ∧
      execDec5 c0 c1 c2 c3 c4 s' = .next (s'.respond r b) := by
  unfold execDec5
  cases readDigits 0 [c0, c1, c2, c3, c4] with
  | error p => exact ⟨_, _, rfl, rfl⟩
  | ok ds =>
    obtain ⟨r, b, hs, hs'⟩ := State.finishDec5_same_response hp (horner ds)
    exact ⟨r, b, congrArg _ hs, congrArg _ hs'⟩

theorem execSym_same_response (s s' : State) (idx : SymbolIndex) :
    ∃ r b, execSym idx s = .next (s.respond r b) ∧ execSym idx s' = .next (s'.respond r b) := by
  unfold execSym
  split
  · exact ⟨_, _, rfl, rfl⟩
  · exact ⟨_, _, rfl, rfl⟩

/-- Two blocks of one policy answer a command alike, whatever their registers hold. -/
theorem exec_same_response {s s' : State} (hp : s.config.overflowPolicy = s'.config.overflowPolicy) (i : Instr) :
    ∃ r b, exec i s = .next (s.respond r b) ∧ exec i s' = .next (s'.respond r b) := by
  cases i with
  | enc4 v => exact ⟨_, _, rfl, rfl⟩
  | dec5 c0 c1 c2 c3 c4 => exact execDec5_same_response hp c0 c1 c2 c3 c4
  | chk c => exact ⟨_, _, rfl, rfl⟩
  | sym idx => exact execSym_same_response s s' idx

/-- What a command leaves on one block, it leaves in the registers of any block of that policy. -/
theorem exec_eq_self_of_same_registers {i : Instr} {s t u : State} (h : exec i s = .next t)
    (hp : s.config.overflowPolicy = u.config.overflowPolicy) (hr : u.result = t.result)
    (hb : u.status = t.status) : exec i u = .next u := by
  obtain ⟨r, b, hs, hu⟩ := exec_same_response hp i
  obtain rfl : s.respond r b = t := by rw [hs] at h; cases h; rfl
  rw [hu, State.respond_eq_self (r := r) (b := b) hr hb]

theorem exec_keeps_config {i : Instr} {s t : State} (h : exec i s = .next t) : t.config = s.config := by
  obtain ⟨r, b, hs, -⟩ := exec_same_response (s := s) rfl i
  rw [hs] at h
  cases h
  exact State.respond_config s r b

/-- A command that is repeated changes nothing (20_memory.md R50). -/
theorem exec_repeats {i : Instr} {s t : State} (h : exec i s = .next t) : exec i t = .next t :=
  exec_eq_self_of_same_registers h (by rw [exec_keeps_config h]) rfl rfl

/-- The host's side of the state has no part in `HoldsAResponse`. -/
theorem State.HoldsAResponse.of_same_registers {s u : State} (h : s.HoldsAResponse) (hc : u.config = s.config)
    (hr : u.result = s.result) (hb : u.status = s.status) : u.HoldsAResponse := by
  obtain ⟨hnone, hzero⟩ | ⟨i, hi⟩ := h
  · exact .inl ⟨hr.trans hnone, hb.trans hzero⟩
  · exact .inr ⟨i, exec_eq_self_of_same_registers hi (by rw [hc]) hr hb⟩

/-- Settles O8: a command leaves its own response (`exec_repeats`), a reset what reset leaves, and a read and an
idle step leave both registers alone. -/
theorem registersAlwaysHoldResetOrAResponse : Obligations.RegistersAlwaysHoldResetOrAResponse := by
  unfold Obligations.RegistersAlwaysHoldResetOrAResponse
  intro s t hs hstep
  obtain ⟨-, rfl⟩ | ⟨cmd, rest, -, hexec⟩ | ⟨rest, -, rfl⟩ | ⟨rest, v, -, -, rfl⟩ | ⟨rest, -, rfl⟩ :=
    step_next_cases hstep
  case inl => exact hs
  case inr.inl => exact .inr ⟨decode cmd, exec_repeats hexec⟩
  case inr.inr.inl => exact .inl ⟨State.applyReset_result _, State.applyReset_status _⟩
  case inr.inr.inr.inl => exact hs.of_same_registers rfl rfl rfl
  case inr.inr.inr.inr => exact hs.of_same_registers rfl rfl rfl

/-- Settles O14, by cases on the command (`exec_same_response`): of the state, only DEC5 reads anything, and that
is the policy. -/
theorem responseDependsOnCommandAndPolicyAlone : Obligations.ResponseDependsOnCommandAndPolicyAlone := by
  unfold Obligations.ResponseDependsOnCommandAndPolicyAlone
  intro i s s' hp
  exact exec_same_response hp i

end Sys2Proof.Machine
end

section
/-! PROOF. What one step does for each action of the host, and what every step keeps of the registers: STATUS is
legal and RESULT agrees with it (10_state.md R25 to R30, R38), the policy stays (R39), and DONE follows the
operations and the resets (R26). -/

namespace Sys2Proof.Machine

/-! ### One step, by the action it takes -/

theorem step_idle {s : State} (hp : s.port = []) : step s = .next s := by
  unfold step; rw [hp]

theorem step_issue {s : State} {cmd : CommandWord} {rest : List HostAction} (hp : s.port = .issue cmd :: rest) :
    step s = exec (decode cmd) { s with port := rest } := by
  unfold step; rw [hp]

theorem step_reset {s : State} {rest : List HostAction} (hp : s.port = .reset :: rest) :
    step s = .next (State.applyReset { s with port := rest }) := by
  unfold step; rw [hp]

theorem step_readResult {s : State} {rest : List HostAction} {v : ResultWord} (hp : s.port = .readResult :: rest)
    (hv : s.result = some v) : step s = .next (State.note { s with port := rest } (.result v)) := by
  unfold step; rw [hp]
  simp only [State.takeReadResult, State.readResult, hv]

theorem step_readStatus {s : State} {rest : List HostAction} (hp : s.port = .readStatus :: rest) :
    step s = .next (State.note { s with port := rest } (.status s.readStatus)) := by
  unfold step; rw [hp]; rfl

/-- A command leaves the block with a value, or with an error that STATUS can express. -/
theorem exec_next_cases {i : Instr} {s t : State} (h : exec i s = .next t) :
    (∃ v, t = s.complete v) ∨
      ∃ c p, c ≠ Cause.none ∧ p.toNat ≤ 4 ∧ (c ≠ .invalidChar → p = 0#3) ∧ t = s.raiseInvalidInput c p := by
  obtain ⟨v, hv⟩ | ⟨c, p, hc, hp, hp0, hr⟩ := exec_completes_or_raises i s
  · exact .inl ⟨v, Host.Outcome.next.inj (h.symm.trans hv)⟩
  · exact .inr ⟨c, p, hc, hp, hp0, Host.Outcome.next.inj (h.symm.trans hr)⟩

/-! ### The legal registers -/

/-- The causes have codes of their own (R28). -/
@[simp] theorem Cause.code_inj {c c' : Cause} : c.code = c'.code ↔ c = c' := by
  cases c <;> cases c' <;> decide

theorem statusLegal_success : statusLegal (statusByte false .none 0) := by decide

theorem statusLegal_error {c : Cause} {p : BitVec 3} (hc : c ≠ .none) (hp : p.toNat ≤ 4)
    (hp0 : c ≠ .invalidChar → p = 0#3) : statusLegal (statusByte true c p) := by
  have hcode : c.code ≠ 0#2 := fun h => hc (Cause.code_inj.mp h)
  exact ⟨statusByte_bit7 _ _ _, by simpa using hp, by simp [hcode], by simpa using hp0, by simp⟩

theorem State.complete_inv (s : State) (v : ResultWord) : (s.complete v).Inv :=
  ⟨statusLegal_success, by simp, by simp⟩

theorem State.raiseInvalidInput_inv (s : State) {c : Cause} {p : BitVec 3} (hc : c ≠ .none) (hp : p.toNat ≤ 4)
    (hp0 : c ≠ .invalidChar → p = 0#3) : (s.raiseInvalidInput c p).Inv :=
  ⟨statusLegal_error hc hp hp0, by simp, by simp⟩

/-- Whatever the block held before, every command leaves legal registers. -/
theorem exec_inv {i : Instr} {s t : State} (h : exec i s = .next t) : t.Inv := by
  obtain ⟨v, rfl⟩ | ⟨c, p, hc, hp, hp0, rfl⟩ := exec_next_cases h
  · exact s.complete_inv v
  · exact s.raiseInvalidInput_inv hc hp hp0

/-- The registers as reset leaves them are legal (R38). -/
theorem State.inv_of_reset_registers {s : State} (hr : s.result = none) (hb : s.status = 0x00#8) : s.Inv := by
  unfold State.Inv
  rw [hr, hb]
  decide

/-- `Inv` speaks of the two registers alone. -/
theorem State.Inv.of_same_registers {s u : State} (h : s.Inv) (hr : u.result = s.result)
    (hb : u.status = s.status) : u.Inv := by
  unfold State.Inv
  rwa [hr, hb]

/-- Settles O7: a command leaves legal registers whatever it found (`exec_inv`), and so does a reset; a read and an
idle step leave both registers alone. -/
theorem stepKeepsRegistersLegal : Obligations.StepKeepsRegistersLegal := by
  unfold Obligations.StepKeepsRegistersLegal
  intro s t hs hstep
  obtain ⟨-, rfl⟩ | ⟨cmd, rest, -, hexec⟩ | ⟨rest, -, rfl⟩ | ⟨rest, v, -, -, rfl⟩ | ⟨rest, -, rfl⟩ :=
    step_next_cases hstep
  case inl => exact hs
  case inr.inl => exact exec_inv hexec
  case inr.inr.inl => exact State.inv_of_reset_registers rfl rfl
  case inr.inr.inr.inl => exact hs.of_same_registers rfl rfl
  case inr.inr.inr.inr => exact hs.of_same_registers rfl rfl

/-- Settles O9: the registers after reset do not depend on the configuration. -/
theorem resetMeetsTheInvariants : Obligations.ResetMeetsTheInvariants := by
  unfold Obligations.ResetMeetsTheInvariants
  have hreset (c : Config) : (State.resetWith c).Inv ∧ (State.resetWith c).HoldsAResponse :=
    ⟨State.inv_of_reset_registers rfl rfl, .inl ⟨rfl, rfl⟩⟩
  exact ⟨(hreset Config.default).1, (hreset Config.default).2, hreset⟩

/-! ### The configuration and DONE -/

theorem step_keeps_config {s t : State} (h : step s = .next t) : t.config = s.config := by
  obtain ⟨-, rfl⟩ | ⟨cmd, rest, -, hexec⟩ | ⟨rest, -, rfl⟩ | ⟨rest, v, -, -, rfl⟩ | ⟨rest, -, rfl⟩ :=
    step_next_cases h
  case inl => rfl
  case inr.inl => exact (exec_keeps_config hexec :)
  case inr.inr.inl => rfl
  case inr.inr.inr.inl => rfl
  case inr.inr.inr.inr => rfl

/-- Settles O10. -/
theorem noStepChangesTheConfiguration : Obligations.NoStepChangesTheConfiguration := by
  unfold Obligations.NoStepChangesTheConfiguration
  exact ⟨fun _ _ => step_keeps_config, fun _ _ _ => exec_keeps_config, State.applyReset_config⟩

theorem statusDone_of_exec {i : Instr} {s t : State} (h : exec i s = .next t) : statusDone t.status = true := by
  obtain ⟨v, rfl⟩ | ⟨c, p, -, -, -, rfl⟩ := exec_next_cases h
  · rw [State.complete_status, statusDone_statusByte]
  · rw [State.raiseInvalidInput_status, statusDone_statusByte]

/-- A step that is neither a command nor a reset leaves STATUS alone. -/
theorem step_keeps_status {s t : State} (h : step s = .next t) (hissue : ∀ cmd rest, s.port ≠ .issue cmd :: rest)
    (hreset : ∀ rest, s.port ≠ .reset :: rest) : t.status = s.status := by
  obtain ⟨-, rfl⟩ | ⟨cmd, rest, hp, -⟩ | ⟨rest, hp, -⟩ | ⟨rest, v, -, -, rfl⟩ | ⟨rest, -, rfl⟩ := step_next_cases h
  case inl => rfl
  case inr.inl => exact absurd hp (hissue cmd rest)
  case inr.inr.inl => exact absurd hp (hreset rest)
  case inr.inr.inr.inl => rfl
  case inr.inr.inr.inr => rfl

theorem statusDone_applyReset (s : State) : statusDone s.applyReset.status = false := by
  rw [State.applyReset_status]; decide

/-- Settles O11: only a command and a reset write STATUS (`step_keeps_status`); the one sets DONE and the other
clears it. -/
theorem doneIsSetByOperationsAndClearedByReset : Obligations.DoneIsSetByOperationsAndClearedByReset := by
  unfold Obligations.DoneIsSetByOperationsAndClearedByReset
  refine ⟨by decide, fun _ _ _ => statusDone_of_exec, ?turnedOn, ?keptOn, ?reset⟩
  case turnedOn =>
    intro s t hs hstep ht
    by_contra hissue
    push Not at hissue
    by_cases hreset : ∃ rest, s.port = .reset :: rest
    · obtain ⟨rest, hp⟩ := hreset
      obtain rfl := Host.Outcome.next.inj ((step_reset hp).symm.trans hstep)
      rw [statusDone_applyReset] at ht
      cases ht
    · rw [step_keeps_status hstep hissue (not_exists.mp hreset), hs] at ht
      cases ht
  case keptOn =>
    intro s t hs hstep hreset
    by_cases hissue : ∃ cmd rest, s.port = .issue cmd :: rest
    · obtain ⟨cmd, rest, hp⟩ := hissue
      exact statusDone_of_exec ((step_issue hp).symm.trans hstep)
    · push Not at hissue
      rwa [step_keeps_status hstep hissue hreset]
  case reset =>
    intro s rest hp
    exact ⟨_, step_reset hp, statusDone_applyReset _⟩

/-! ### Reset, the step of a command, and the host's reads -/

/-- Settles O1. -/
theorem resetLeavesStatusZeroAndNoResult : Obligations.ResetLeavesStatusZeroAndNoResult := by
  unfold Obligations.ResetLeavesStatusZeroAndNoResult
  have hresult : State.reset.result = none := rfl
  have hread : State.reset.readResult = .error .resultHoldsNoValue := by unfold State.readResult; rw [hresult]
  exact ⟨rfl, by decide, by decide, by decide, by decide, by decide, hresult, hread, rfl⟩

/-- `withFetchWord` presents the command word that its number is. -/
theorem State.withFetchWord_of_lt (s : State) (nbits : Nat) {w : Nat} (hw : w < 2 ^ 42) :
    s.withFetchWord nbits w = s.present (.issue (BitVec.ofNat 42 w)) := by
  unfold State.withFetchWord commandWordOf
  rw [if_pos hw]

/-- Settles O3. -/
theorem stepRunsTheDecodedCommand : Obligations.StepRunsTheDecodedCommand := by
  unfold Obligations.StepRunsTheDecodedCommand
  refine ⟨fun _ _ _ => step_issue, fun _ => step_idle, fun s nbits w hw => ?_⟩
  rw [State.withFetchWord_of_lt s nbits hw, step_present_issue]

theorem hardwiredStatus_bit7 (b : StatusByte) : (hardwiredStatus b).getLsbD 7 = false := by
  revert b; decide

theorem hardwiredStatus_getLsbD (b : StatusByte) {k : Nat} (hk : k < 7) :
    (hardwiredStatus b).getLsbD k = b.getLsbD k := by
  unfold hardwiredStatus
  rw [BitVec.getLsbD_append]
  simp [hk]

/-- Settles O5: the note of a read of STATUS is the byte with its bit 7 forced to 0. -/
theorem hostReadsRegistersAndBit7IsZero : Obligations.HostReadsRegistersAndBit7IsZero := by
  unfold Obligations.HostReadsRegistersAndBit7IsZero
  refine ⟨fun _ _ _ => step_readResult, fun s rest hp => ?_⟩
  exact ⟨s.readStatus, step_readStatus hp, hardwiredStatus_bit7 _, fun _ => hardwiredStatus_getLsbD _⟩

end Sys2Proof.Machine
end

section
/-! PROOF. The contents of the two ROMs: the symbols of ALPHABET (10_state.md R32), and DMAP as its inverse (R33)
and written out (R34). -/

namespace Sys2Proof.Machine

/-! ### The symbols of ALPHABET -/

theorem alphabet_nodup : alphabet.Nodup := by decide

/-- The symbols are printable, and neither the quote nor the backslash is one (R32). -/
theorem alphabet_printable :
    ∀ c ∈ alphabet, 0x21 ≤ c.toNat ∧ c.toNat ≤ 0x7D ∧ c ≠ 0x22#8 ∧ c ≠ 0x5C#8 := by
  have hall : (alphabet.all fun c =>
      decide (0x21 ≤ c.toNat ∧ c.toNat ≤ 0x7D ∧ c ≠ 0x22#8 ∧ c ≠ 0x5C#8)) = true := by decide
  simpa only [List.all_eq_true, decide_eq_true_eq] using hall

theorem needsJsonEscape_of_mem_alphabet {c : Character} (hc : c ∈ alphabet) : needsJsonEscape c = false := by
  obtain ⟨hlow, -, hquote, hbackslash⟩ := alphabet_printable c hc
  have hprintable : 0x20 ≤ c.toNat := by omega
  simp [needsJsonEscape, hquote, hbackslash, hprintable]

/-- Settles O31. -/
theorem alphabetHas85DistinctPrintableSymbols : Obligations.AlphabetHas85DistinctPrintableSymbols := by
  unfold Obligations.AlphabetHas85DistinctPrintableSymbols
  exact ⟨alphabet_length, alphabet_nodup, alphabet_printable, fun _ => needsJsonEscape_of_mem_alphabet⟩

/-! ### DMAP, the inverse of ALPHABET -/

theorem dmap_eq_some_iff {c : Character} {d : Digit} : dmap c = some d ↔ alphabet[d.val]? = some c := by
  rw [getElem?_alphabet, Option.some_inj]
  exact ⟨symbolAt_of_dmap, fun h => h ▸ dmap_symbolAt d⟩

theorem dmap_eq_none_iff {c : Character} : dmap c = none ↔ ∀ i, i < 85 → alphabet[i]? ≠ some c := by
  rw [dmap_eq_none_iff_not_mem, mem_alphabet_iff]
  constructor
  · intro h i hi hc
    exact h ⟨⟨i, hi⟩, symbolAt_of_dmap (dmap_eq_some_iff.mpr hc)⟩
  · rintro h ⟨d, rfl⟩
    exact h d.val d.isLt (getElem?_alphabet d)

theorem dmapEntry_toNat_of_dmap {c : Character} {d : Digit} (h : dmap c = some d) :
    (dmapEntry c).toNat = 0x80 + d.val := by
  obtain rfl := symbolAt_of_dmap h
  have hd : (BitVec.ofNat 7 d.val).toNat = d.val := by rw [BitVec.toNat_ofNat]; omega
  rw [dmapEntry_symbolAt, append_toNat, hd]
  rfl

theorem dmapEntry_of_dmap_none {c : Character} (h : dmap c = none) : dmapEntry c = 0x00#8 := by
  unfold dmapEntry; rw [h]

/-- CHK answers the entry with zeros above it (R33, 40_alphabet_lookup.md R80). -/
theorem exec_chk (c : Character) (s : State) :
    exec (.chk c) s = .next { s with result := some (0#32 ++ dmapEntry c), status := 0x01#8 } := by
  have hzeros : (dmapEntry c).setWidth 40 = 0#32 ++ dmapEntry c := BitVec.setWidth_eq_append (by decide)
  rw [← hzeros, ← statusByte_success]
  rfl

/-- Settles O32. -/
theorem dmapIsTheInverseOfAlphabet : Obligations.DmapIsTheInverseOfAlphabet := by
  unfold Obligations.DmapIsTheInverseOfAlphabet
  exact ⟨fun _ _ => dmap_eq_some_iff, fun _ => dmap_eq_none_iff, fun _ _ => dmapEntry_toNat_of_dmap,
    fun _ => dmapEntry_of_dmap_none, exec_chk⟩

/-! ### DMAP written out -/

/-- The table entry of the symbol at an index. -/
theorem dmap_val_of_getElem? {c : Character} {n : Nat} (h : alphabet[n]? = some c) :
    (dmap c).map Fin.val = some n := by
  have hn : n < 85 := alphabet_length ▸ (List.getElem?_eq_some_iff.mp h).1
  rw [dmap_eq_some_iff (d := ⟨n, hn⟩) |>.mpr h]
  rfl

/-- Where ALPHABET holds a run of `count` consecutive codes from `first` on, at the indices from `base` on, DMAP maps
a code of the run by its offset. -/
theorem dmap_val_of_run {first base count : Nat}
    (hrun : ∀ k < count, alphabet[base + k]? = some (BitVec.ofNat 8 (first + k))) {c : Character}
    (hfirst : first ≤ c.toNat) (hlast : c.toNat < first + count) :
    (dmap c).map Fin.val = some (c.toNat - first + base) := by
  apply dmap_val_of_getElem?
  have hc : BitVec.ofNat 8 (first + (c.toNat - first)) = c := by
    rw [Nat.add_sub_cancel' hfirst, BitVec.ofNat_toNat, BitVec.setWidth_eq]
  rw [Nat.add_comm, hrun _ (by omega), hc]

theorem dmap_eq_none_of_not_printable {c : Character}
    (h : c.toNat ≤ 0x20 ∨ c.toNat = 0x7F ∨ 0x80 ≤ c.toNat) : dmap c = none := by
  rw [dmap_eq_none_iff_not_mem]
  intro hc
  obtain ⟨hlow, hhigh, -⟩ := alphabet_printable c hc
  omega

/-- Settles O33: the three runs of ALPHABET are the digits from index 0, the lowercase letters from 10 and the
uppercase letters from 36 (`dmap_val_of_run`). -/
theorem dmapMatchesTheWrittenTable : Obligations.DmapMatchesTheWrittenTable := by
  unfold Obligations.DmapMatchesTheWrittenTable
  have hunused : ∀ c ∈ [0x22#8, 0x27#8, 0x2C#8, 0x3B#8, 0x5C#8, 0x5F#8, 0x60#8, 0x7C#8, 0x7E#8], c ∉ alphabet := by
    decide
  refine ⟨fun _ => dmap_eq_none_of_not_printable, fun c hc => (dmap_eq_none_iff_not_mem c).mpr (hunused c hc),
    fun c hlow hhigh => ?digits, fun c hlow hhigh => ?lower, fun c hlow hhigh => ?upper, fun e he => ?punctuation⟩
  case digits => exact dmap_val_of_run (base := 0) (count := 10) (by decide) hlow (by omega)
  case lower => exact dmap_val_of_run (count := 26) (by decide) hlow (by omega)
  case upper => exact dmap_val_of_run (count := 26) (by decide) hlow (by omega)
  case punctuation =>
    apply dmap_val_of_getElem?
    revert e; decide

end Sys2Proof.Machine
end

section
/-! PROOF. Why an operation fails (10_state.md R28, R29): the three reasons, each tied to the command by what `exec`
raises, and the CAUSE and EPOS beside it. -/

namespace Sys2Proof.Machine

/-- Why a command on the block `s` fails: a character of DEC5 outside the alphabet, a group of DEC5 whose value
overflows under REJECT, an index of SYM above 84 (R28). -/
inductive FailsWith (s : State) : Instr → Cause → Prop where
  | invalidChar {c0 c1 c2 c3 c4 c : Character} (hmem : c ∈ [c0, c1, c2, c3, c4]) (hc : c ∉ alphabet) :
      FailsWith s (.dec5 c0 c1 c2 c3 c4) .invalidChar
  | overflow {d0 d1 d2 d3 d4 : Digit} (hpolicy : s.config.overflowPolicy = .reject)
      (hover : 2 ^ 32 - 1 < groupValue d0 d1 d2 d3 d4) :
      FailsWith s (.dec5 (symbolAt d0) (symbolAt d1) (symbolAt d2) (symbolAt d3) (symbolAt d4)) .overflow
  | range {idx : SymbolIndex} (hidx : 84 < idx.toNat) : FailsWith s (.sym idx) .range

theorem failsWith_invalidChar_iff {s : State} {i : Instr} :
    FailsWith s i .invalidChar ↔
      ∃ c0 c1 c2 c3 c4, i = .dec5 c0 c1 c2 c3 c4 ∧ ∃ c ∈ [c0, c1, c2, c3, c4], c ∉ alphabet := by
  constructor
  · rintro (⟨hmem, hc⟩ | _ | _)
    exact ⟨_, _, _, _, _, rfl, _, hmem, hc⟩
  · rintro ⟨c0, c1, c2, c3, c4, rfl, c, hmem, hc⟩
    exact .invalidChar hmem hc

theorem failsWith_overflow_iff {s : State} {i : Instr} :
    FailsWith s i .overflow ↔
      ∃ d0 d1 d2 d3 d4,
        i = .dec5 (symbolAt d0) (symbolAt d1) (symbolAt d2) (symbolAt d3) (symbolAt d4) ∧
          s.config.overflowPolicy = .reject ∧ 2 ^ 32 - 1 < groupValue d0 d1 d2 d3 d4 := by
  constructor
  · rintro (_ | ⟨hpolicy, hover⟩ | _)
    exact ⟨_, _, _, _, _, rfl, hpolicy, hover⟩
  · rintro ⟨d0, d1, d2, d3, d4, rfl, hpolicy, hover⟩
    exact .overflow hpolicy hover

theorem failsWith_range_iff {s : State} {i : Instr} :
    FailsWith s i .range ↔ ∃ idx : SymbolIndex, i = .sym idx ∧ 84 < idx.toNat := by
  constructor
  · rintro (_ | _ | hidx)
    exact ⟨_, rfl, hidx⟩
  · rintro ⟨idx, rfl, hidx⟩
    exact .range hidx

/-! ### What the failing operations do -/

/-- The Horner sum is the value of the group (42_block_decoder.md R102). -/
theorem horner_eq_groupValue (d0 d1 d2 d3 d4 : Digit) :
    horner [d0, d1, d2, d3, d4] = groupValue d0 d1 d2 d3 d4 := by
  rw [horner_five, groupValue]
  omega

theorem symbolAt_mem_alphabet (d : Digit) : symbolAt d ∈ alphabet := (mem_alphabet_iff _).mpr ⟨d, rfl⟩

/-- DEC5 of five characters names the leftmost that is no symbol, or it decodes the group of five digits. -/
theorem exec_dec5_cases (c0 c1 c2 c3 c4 : Character) (s : State) :
    (∃ p c, exec (.dec5 c0 c1 c2 c3 c4) s = .next (s.raiseInvalidInput .invalidChar (BitVec.ofNat 3 p)) ∧ p < 5 ∧
      [c0, c1, c2, c3, c4][p]? = some c ∧ c ∉ alphabet ∧
      ∀ q, q < p → ∃ a, [c0, c1, c2, c3, c4][q]? = some a ∧ a ∈ alphabet) ∨
    ∃ d0 d1 d2 d3 d4, [c0, c1, c2, c3, c4] = [d0, d1, d2, d3, d4].map symbolAt ∧
      exec (.dec5 c0 c1 c2 c3 c4) s = .next (s.finishDec5 (groupValue d0 d1 d2 d3 d4)) := by
  obtain ⟨p, c, hread, hp, hc⟩ | ⟨d0, d1, d2, d3, d4, hsymbols, hread⟩ := readDigits_five_cases c0 c1 c2 c3 c4
  · exact .inl ⟨p, c, by simp only [exec, execDec5, hread], hp, hc⟩
  · exact .inr ⟨d0, d1, d2, d3, d4, hsymbols, by simp only [exec, execDec5, hread, horner_eq_groupValue]⟩

/-- Each reason of `FailsWith` makes the command raise InvalidInput with its cause. -/
theorem FailsWith.exec_raises {s : State} {i : Instr} {cause : Cause} (h : FailsWith s i cause) :
    ∃ p, exec i s = .next (s.raiseInvalidInput cause p) := by
  cases h with
  | @invalidChar c0 c1 c2 c3 c4 c hmem hc =>
    obtain ⟨p, -, hexec, -⟩ | ⟨d0, d1, d2, d3, d4, hsymbols, -⟩ := exec_dec5_cases c0 c1 c2 c3 c4 s
    · exact ⟨_, hexec⟩
    · rw [hsymbols] at hmem
      obtain ⟨d, -, rfl⟩ := List.mem_map.mp hmem
      exact absurd (symbolAt_mem_alphabet d) hc
  | @overflow d0 d1 d2 d3 d4 hpolicy hover =>
    refine ⟨0, ?_⟩
    rw [exec, execDec5_symbols, horner_eq_groupValue, State.finishDec5_of_reject hover hpolicy]
  | range hidx => exact ⟨0, by rw [exec, execSym, dif_neg (by omega)]⟩

theorem State.complete_ne_raiseInvalidInput (s : State) (v : ResultWord) (cause : Cause) (p : BitVec 3) :
    s.complete v ≠ s.raiseInvalidInput cause p := by
  intro h
  simpa using congrArg (fun t => statusErr t.status) h

theorem State.raiseInvalidInput_cause_inj {s : State} {cause cause' : Cause} {p p' : BitVec 3}
    (h : s.raiseInvalidInput cause p = s.raiseInvalidInput cause' p') : cause = cause' := by
  simpa using congrArg (fun t => statusCause t.status) h

/-- The end of DEC5 raises InvalidInput only on an overflow under REJECT (R103 to R105). -/
theorem State.finishDec5_raises {s : State} {acc : Nat} {cause : Cause} {p : BitVec 3}
    (h : s.finishDec5 acc = s.raiseInvalidInput cause p) :
    cause = .overflow ∧ s.config.overflowPolicy = .reject ∧ 0xFFFFFFFF < acc := by
  obtain hfits | hover := le_or_gt acc 0xFFFFFFFF
  · rw [finishDec5_of_fits hfits] at h
    exact absurd h (complete_ne_raiseInvalidInput s _ _ _)
  · cases hpolicy : s.config.overflowPolicy with
    | reject =>
      rw [finishDec5_of_reject hover hpolicy] at h
      exact ⟨(raiseInvalidInput_cause_inj h).symm, rfl, hover⟩
    | wrap =>
      rw [finishDec5_of_wrap hover hpolicy] at h
      exact absurd h (complete_ne_raiseInvalidInput s _ _ _)

/-- A command that raises InvalidInput has a reason of `FailsWith`. -/
theorem failsWith_of_exec_raises {s : State} {i : Instr} {cause : Cause} {p : BitVec 3}
    (h : exec i s = .next (s.raiseInvalidInput cause p)) : FailsWith s i cause := by
  cases i with
  | enc4 v => exact absurd (Host.Outcome.next.inj h) (s.complete_ne_raiseInvalidInput _ _ _)
  | chk c => exact absurd (Host.Outcome.next.inj h) (s.complete_ne_raiseInvalidInput _ _ _)
  | sym idx =>
    rw [exec, execSym] at h
    split at h
    · exact absurd (Host.Outcome.next.inj h) (s.complete_ne_raiseInvalidInput _ _ _)
    · obtain rfl := State.raiseInvalidInput_cause_inj (Host.Outcome.next.inj h)
      exact .range (by omega)
  | dec5 c0 c1 c2 c3 c4 =>
    obtain ⟨q, c, hexec, -, hc, hn, -⟩ | ⟨d0, d1, d2, d3, d4, hsymbols, hexec⟩ := exec_dec5_cases c0 c1 c2 c3 c4 s
    · obtain rfl := State.raiseInvalidInput_cause_inj (Host.Outcome.next.inj (hexec.symm.trans h))
      exact .invalidChar (List.mem_of_getElem? hc) hn
    · obtain ⟨rfl, hpolicy, hover⟩ := State.finishDec5_raises (Host.Outcome.next.inj (hexec.symm.trans h))
      simp only [List.map_cons, List.map_nil, List.cons.injEq, and_true] at hsymbols
      obtain ⟨rfl, rfl, rfl, rfl, rfl⟩ := hsymbols
      exact .overflow hpolicy hover

/-! ### CAUSE and EPOS -/

/-- CAUSE names the reason the command failed for. -/
theorem statusCause_eq_code_iff {i : Instr} {s t : State} (h : exec i s = .next t) {cause : Cause}
    (hcause : cause ≠ .none) : statusCause t.status = cause.code ↔ FailsWith s i cause := by
  constructor
  · intro hcode
    obtain ⟨v, rfl⟩ | ⟨cause', p, -, -, -, rfl⟩ := exec_next_cases h
    · rw [State.complete_status, statusCause_statusByte, Cause.code_inj] at hcode
      exact absurd hcode.symm hcause
    · rw [State.raiseInvalidInput_status, statusCause_statusByte, Cause.code_inj] at hcode
      exact failsWith_of_exec_raises (hcode ▸ h)
  · intro hfails
    obtain ⟨p, hraises⟩ := hfails.exec_raises
    obtain rfl := Host.Outcome.next.inj (h.symm.trans hraises)
    rw [State.raiseInvalidInput_status, statusCause_statusByte]

/-- Where DEC5 fails for a character, EPOS is the position of the leftmost one outside the alphabet (R29). -/
theorem statusEpos_is_leftmost {c0 c1 c2 c3 c4 : Character} {s t : State}
    (h : exec (.dec5 c0 c1 c2 c3 c4) s = .next t) (hfails : FailsWith s (.dec5 c0 c1 c2 c3 c4) .invalidChar) :
    (∃ c, [c0, c1, c2, c3, c4][(statusEpos t.status).toNat]? = some c ∧ c ∉ alphabet) ∧
      ∀ q, q < (statusEpos t.status).toNat → ∃ c, [c0, c1, c2, c3, c4][q]? = some c ∧ c ∈ alphabet := by
  obtain ⟨p, c, hexec, hp, hc, hn, hleft⟩ | ⟨d0, d1, d2, d3, d4, -, hexec⟩ := exec_dec5_cases c0 c1 c2 c3 c4 s
  · obtain rfl := Host.Outcome.next.inj (h.symm.trans hexec)
    have hepos : (BitVec.ofNat 3 p).toNat = p := by rw [BitVec.toNat_ofNat]; omega
    rw [State.raiseInvalidInput_status, statusEpos_statusByte, hepos]
    exact ⟨⟨c, hc, hn⟩, hleft⟩
  · obtain ⟨p, hraises⟩ := hfails.exec_raises
    obtain ⟨hcause, -⟩ := State.finishDec5_raises (Host.Outcome.next.inj (hexec.symm.trans hraises))
    cases hcause

/-- Settles O12: CAUSE 0 and EPOS 0 are those of a legal STATUS (`exec_inv`); each other CAUSE is the reason the
command fails for (`statusCause_eq_code_iff`). -/
theorem causeAndEposSayWhyTheOperationFailed : Obligations.CauseAndEposSayWhyTheOperationFailed := by
  unfold Obligations.CauseAndEposSayWhyTheOperationFailed
  intro i s t h
  obtain ⟨⟨-, -, hnoCause, hnoEpos, -⟩, -⟩ := exec_inv h
  have hinvalid := statusCause_eq_code_iff h (cause := .invalidChar) (by decide)
  have hoverflow := statusCause_eq_code_iff h (cause := .overflow) (by decide)
  have hrange := statusCause_eq_code_iff h (cause := .range) (by decide)
  refine ⟨hnoCause, hinvalid.trans failsWith_invalidChar_iff, hoverflow.trans failsWith_overflow_iff,
    hrange.trans failsWith_range_iff, hnoEpos, ?leftmost⟩
  case leftmost =>
    rintro hcause c0 c1 c2 c3 c4 rfl
    exact statusEpos_is_leftmost h (hinvalid.mp hcause)

end Sys2Proof.Machine
end

section
/-! PROOF. The host's view of the block (20_memory.md): a read changes no register and a command repeats itself (R50),
a host that reads after each command sees that command's response (R52), and instances are independent (R53). -/

namespace Sys2Proof.Machine

/-! ### Reads -/

/-- A read does nothing but take itself from the port and note what it returns. -/
theorem step_read_notes {s t : State} {rest : List HostAction}
    (hp : s.port = .readResult :: rest ∨ s.port = .readStatus :: rest) (h : step s = .next t) :
    ∃ reading, t = State.note { s with port := rest } reading := by
  obtain hp | hp := hp
  · obtain ⟨hp', -⟩ | ⟨cmd, rest', hp', -⟩ | ⟨rest', hp', -⟩ | ⟨rest', v, hp', -, rfl⟩ | ⟨rest', hp', -⟩ :=
      step_next_cases h
    all_goals cases hp.symm.trans hp'
    exact ⟨.result v, rfl⟩
  · obtain rfl := Host.Outcome.next.inj ((step_readStatus hp).symm.trans h)
    exact ⟨.status s.readStatus, rfl⟩

/-- Settles O6: a read only notes what it returns (`step_read_notes`), and a command finds its own response
(`exec_repeats`). -/
theorem readsHaveNoSideEffectAndCommandsRepeat : Obligations.ReadsHaveNoSideEffectAndCommandsRepeat := by
  unfold Obligations.ReadsHaveNoSideEffectAndCommandsRepeat
  refine ⟨fun s t rest hp h => ?read, fun i s t => exec_repeats⟩
  case read =>
    obtain ⟨reading, rfl⟩ := step_read_notes hp h
    exact ⟨rfl, rfl, rfl, rfl⟩

/-! ### Responses in the order issued -/

/-- A step that answers a next state starts a run of one step more. -/
theorem run_succ_of_step {s t : State} (h : step s = .next t) (n : Nat) : run (n + 1) s = run n t := by
  rw [run_succ, h]

/-- A command leaves a response, and a read of STATUS returns the STATUS of it as it stands (10_state.md R30). -/
theorem exec_responds (i : Instr) (s : State) :
    ∃ r : Response, exec i s = .next (s.respond r.result r.status) ∧ hardwiredStatus r.status = r.status := by
  obtain ⟨v, hv⟩ | ⟨c, p, -, -, -, hr⟩ := exec_completes_or_raises i s
  · exact ⟨⟨v, _⟩, hv, hardwiredStatus_statusByte _ _ _⟩
  · exact ⟨⟨0, _⟩, hr, hardwiredStatus_statusByte _ _ _⟩

/-- The response to a command is what the command leaves on any one block of that configuration. -/
theorem isResponse_iff {s : State} {cmd : CommandWord} {r : Response} :
    IsResponse s.config cmd r ↔
      ∃ t, exec (decode cmd) s = .next t ∧ t.result = some r.result ∧ t.status = r.status := by
  refine ⟨?_, fun ⟨t, ht⟩ => ⟨s, t, rfl, ht⟩⟩
  rintro ⟨s', t', hconfig, hexec, hresult, hstatus⟩
  obtain ⟨v, b, hs', hs⟩ := exec_same_response (congrArg Config.overflowPolicy hconfig) (decode cmd)
  obtain rfl := Host.Outcome.next.inj (hs'.symm.trans hexec)
  exact ⟨_, hs, hresult, hstatus⟩

/-- The two reads of a response, RESULT first. -/
theorem run_reads {s : State} {rest : List HostAction} {v : ResultWord}
    (hp : s.port = .readResult :: .readStatus :: rest) (hv : s.result = some v) (n : Nat) :
    run (n + 2) s =
      run n { s with port := rest, readings := s.readings ++ [.result v, .status s.readStatus] } := by
  rw [run_succ_of_step (step_readResult hp hv), run_succ_of_step (step_readStatus rfl)]
  simp only [State.note, State.readStatus, List.append_assoc, List.cons_append, List.nil_append]

/-- One round of the host, a command and the two reads of its response: what the host reads is the response. -/
theorem run_round {s : State} {cmd : CommandWord} {rest : List HostAction}
    (hp : s.port = .issue cmd :: .readResult :: .readStatus :: rest) (n : Nat) :
    ∃ (r : Response) (t : State), IsResponse s.config cmd r ∧ run (n + 3) s = run n t ∧
      t.port = rest ∧ t.config = s.config ∧ t.readings = s.readings ++ readingsOf [r] := by
  obtain ⟨r, hexec, hread⟩ := exec_responds (decode cmd) { s with port := .readResult :: .readStatus :: rest }
  have hresponse := isResponse_iff.mpr ⟨_, hexec, State.respond_result _ _ _, State.respond_status _ _ _⟩
  have hround := (run_succ_of_step ((step_issue hp).trans hexec) (n + 2)).trans (run_reads rfl rfl n)
  refine ⟨r, _, hresponse, hround, rfl, rfl, ?_⟩
  have hstatus (u : State) : (u.respond r.result r.status).readStatus = r.status := hread
  rw [hstatus]
  rfl

/-- A host that takes every response reads them in the order issued: a round keeps the configuration, on which alone
the response to a later command depends. -/
theorem run_issueAndRead {cmds : List CommandWord} {s : State} (hp : s.port = issueAndRead cmds) :
    ∃ rs, List.Forall₂ (IsResponse s.config) cmds rs ∧
      ∃ t, run (3 * cmds.length) s = .next t ∧ t.port = [] ∧ t.config = s.config ∧
        t.readings = s.readings ++ readingsOf rs := by
  induction cmds generalizing s with
  | nil => exact ⟨[], .nil, s, rfl, hp, rfl, (List.append_nil _).symm⟩
  | cons cmd cmds ih =>
    obtain ⟨r, u, hr, hround, hport, hconfig, hreadings⟩ := run_round hp (3 * cmds.length)
    obtain ⟨rs, hrs, t, hrun, hport', hconfig', hreadings'⟩ := ih hport
    refine ⟨r :: rs, .cons hr (hconfig ▸ hrs), t, hround.trans hrun, hport', hconfig'.trans hconfig, ?_⟩
    rw [hreadings', hreadings, List.append_assoc]
    rfl

/-- Settles O42, by induction on the commands (`run_issueAndRead`): a response depends on the command and the
configuration alone, so each command answers in its turn as it does on the first state. -/
theorem hostSeesEachResponseInIssueOrder : Obligations.HostSeesEachResponseInIssueOrder := by
  unfold Obligations.HostSeesEachResponseInIssueOrder
  intro cmds s
  obtain ⟨rs, hrs, hrun⟩ := run_issueAndRead (s := { s with port := issueAndRead cmds }) rfl
  exact ⟨rs, hrs.imp fun _ _ => (isResponse_iff (s := s)).mp, hrun⟩

/-! ### Instances -/

theorem bankStep_getElem?_same (bank : List StepOutcome) (k : Nat) :
    (bankStep bank k)[k]? = bank[k]?.map stepOutcome := by
  rw [bankStep, List.getElem?_modify_eq, Option.map_eq_map]

theorem bankStep_getElem?_of_ne (bank : List StepOutcome) {j k : Nat} (h : j ≠ k) :
    (bankStep bank j)[k]? = bank[k]? := by
  rw [bankStep, List.getElem?_modify_ne _ _ h]

/-- Settles O44, by induction on the schedule: a step of instance `k` is the first of its own, and a step of another
leaves it alone. -/
theorem instancesAreIndependent : Obligations.InstancesAreIndependent := by
  unfold Obligations.InstancesAreIndependent
  intro schedule
  induction schedule with
  | nil => intro bank k; exact Option.map_id_apply.symm
  | cons j js ih =>
    intro bank k
    rw [bankRun_cons, ih]
    obtain rfl | hjk := eq_or_ne j k
    · rw [bankStep_getElem?_same, Option.map_map, List.count_cons_self]
      rfl
    · rw [bankStep_getElem?_of_ne bank hjk, List.count_cons_of_ne hjk]

end Sys2Proof.Machine
end

section
/-! PROOF. The byte order of a block (20_memory.md R41, R43): four bytes make V and are read back from RESULT, and a
RESULT of ENC4 is a payload of DEC5. -/

namespace Sys2Proof.Machine

/-- Four bytes as one number, the first the most significant (R41). -/
theorem blockOfBytes_toNat (b0 b1 b2 b3 : Byte) :
    (blockOfBytes b0 b1 b2 b3).toNat =
      b0.toNat * 2 ^ 24 + b1.toNat * 2 ^ 16 + b2.toNat * 2 ^ 8 + b3.toNat := by
  rw [blockOfBytes, append_toNat (b0 ++ b1 ++ b2) b3, append_toNat (b0 ++ b1) b2, append_toNat b0 b1]
  omega

/-- A field of RESULT that holds V is that field of V (R43). -/
theorem extractLsb'_of_block (v : BlockValue) {start : Nat} (h : start ≤ 24) :
    (v.setWidth 40 : ResultWord).extractLsb' start 8 = v.extractLsb' start 8 :=
  BitVec.extractLsb'_setWidth_of_le (by omega)

theorem resultByte_of_block (v : BlockValue) (k : Nat) :
    resultByte (v.setWidth 40) k = v.extractLsb' (24 - 8 * k) 8 := extractLsb'_of_block v (Nat.sub_le _ _)

/-- The bytes read from RESULT are the ones V was made of. -/
theorem resultByte_blockOfBytes (b0 b1 b2 b3 : Byte) :
    let r : ResultWord := (blockOfBytes b0 b1 b2 b3).setWidth 40
    resultByte r 0 = b0 ∧ resultByte r 1 = b1 ∧ resultByte r 2 = b2 ∧ resultByte r 3 = b3 := by
  have := b0.isLt; have := b1.isLt; have := b2.isLt; have := b3.isLt
  refine ⟨?_, ?_, ?_, ?_⟩ <;> apply BitVec.eq_of_toNat_eq <;>
    rw [resultByte_of_block, extract_toNat, blockOfBytes_toNat] <;> omega

/-- The bytes read from RESULT make the V that it holds. -/
theorem blockOfBytes_resultByte (v : BlockValue) :
    let r : ResultWord := v.setWidth 40
    blockOfBytes (resultByte r 0) (resultByte r 1) (resultByte r 2) (resultByte r 3) = v := by
  have := v.isLt
  apply BitVec.eq_of_toNat_eq
  simp only [blockOfBytes_toNat, resultByte_of_block, extract_toNat]
  omega

/-- DEC5 of five symbols whose value fits, or wraps under WRAP, leaves the value modulo 2^32 (R104, R105). -/
theorem exec_dec5_of_fits_or_wrap {d0 d1 d2 d3 d4 : Digit} {s : State} {v : BlockValue}
    (hv : v.toNat = groupValue d0 d1 d2 d3 d4 % 2 ^ 32)
    (h : groupValue d0 d1 d2 d3 d4 ≤ 0xFFFFFFFF ∨ s.config.overflowPolicy = .wrap) :
    exec (.dec5 (symbolAt d0) (symbolAt d1) (symbolAt d2) (symbolAt d3) (symbolAt d4)) s =
      .next (s.complete (v.setWidth 40)) := by
  have hresult : v.setWidth 40 = BitVec.ofNat 40 (groupValue d0 d1 d2 d3 d4 % 2 ^ 32) := by
    rw [← hv, BitVec.ofNat_toNat]
  rw [exec, execDec5_symbols, horner_eq_groupValue, hresult]
  obtain hfits | hover := le_or_gt (groupValue d0 d1 d2 d3 d4) 0xFFFFFFFF
  · rw [State.finishDec5_of_fits hfits, Nat.mod_eq_of_lt (by omega)]
  · rw [State.finishDec5_of_wrap hover (h.resolve_left (by omega))]

/-- A DEC5 word is the five characters of its payload (30_encoding.md R64). -/
theorem decode_dec5_word (din : Payload) :
    decode (0b01#2 ++ din) =
      .dec5 (characterAt din 0) (characterAt din 1) (characterAt din 2) (characterAt din 3) (characterAt din 4) := by
  unfold decode
  rw [opField_append, dinField_append]
  rfl

theorem decode_dec5_packCharacters (c0 c1 c2 c3 c4 : Character) :
    decode (0b01#2 ++ packCharacters c0 c1 c2 c3 c4) = .dec5 c0 c1 c2 c3 c4 := by
  obtain ⟨h0, h1, h2, h3, h4⟩ := characterAt_pack c0 c1 c2 c3 c4
  rw [decode_dec5_word, h0, h1, h2, h3, h4]

/-- Settles O39: RESULT of a DEC5 that succeeds is V in its low 32 bits (`exec_dec5_of_fits_or_wrap`), and RESULT of
an ENC4 packs its characters as the payload of DEC5 does (`decode_dec5_packCharacters`). -/
theorem blocksAreBigEndianBothWays : Obligations.BlocksAreBigEndianBothWays := by
  unfold Obligations.BlocksAreBigEndianBothWays
  refine ⟨blockOfBytes_toNat, resultByte_blockOfBytes, fun d0 d1 d2 d3 d4 s v hv h => ?decoded,
    fun v s t r hexec hr => ?encoded⟩
  case decoded =>
    exact ⟨_, _, exec_dec5_of_fits_or_wrap hv h, rfl, extractLsb'_of_block v (by decide),
      extractLsb'_of_block v (by decide), extractLsb'_of_block v (by decide), extractLsb'_of_block v (by decide),
      blockOfBytes_resultByte v⟩
  case encoded =>
    obtain rfl := Host.Outcome.next.inj hexec
    obtain rfl := Option.some.inj hr
    exact decode_dec5_packCharacters _ _ _ _ _

end Sys2Proof.Machine
end

section
/-! PROOF. The command words (30_encoding.md): the row a word selects (R62), the operands of its payload (R63 to R66),
its ignored bits (R68), and the decoder and the encoder as inverses of each other (R69, R70). -/

namespace Sys2Proof

open Machine

/-! ### A word and its operands -/

/-- Every command word is the code of an operation and a payload. -/
theorem exists_code_append (cmd : CommandWord) : ∃ (o : Operation) (din : Payload), cmd = o.code ++ din :=
  ⟨operationOf (opField cmd), dinField cmd, by rw [code_operationOf, op_append_din]⟩

theorem operation_decode_append (o : Operation) (din : Payload) : (decode (o.code ++ din)).operation = o := by
  rw [operation_decode, opField_append, operationOf_code]

/-- R63; the DEC5 word of R64 is `decode_dec5_word`. -/
theorem decode_enc4_word (din : Payload) : decode (0b00#2 ++ din) = .enc4 (din.extractLsb' 0 32) := by
  unfold decode
  rw [opField_append, dinField_append]
  rfl

/-- R65. -/
theorem decode_chk_word (din : Payload) : decode (0b10#2 ++ din) = .chk (din.extractLsb' 0 8) := by
  unfold decode
  rw [opField_append, dinField_append]
  rfl

/-- R66. -/
theorem decode_sym_word (din : Payload) : decode (0b11#2 ++ din) = .sym (din.extractLsb' 0 7) := by
  unfold decode
  rw [opField_append, dinField_append]
  rfl

/-- The fields of an ENC4 word, written in a row, are `op` and a payload that ends in the block value. -/
theorem append_bytes_eq (op : BitVec 2) (x : BitVec 8) (b0 b1 b2 b3 : Byte) :
    op ++ x ++ b0 ++ b1 ++ b2 ++ b3 = op ++ (x ++ blockOfBytes b0 b1 b2 b3 : Payload) := by
  simp only [blockOfBytes, BitVec.append_assoc, BitVec.cast_eq]

/-- The fields of a DEC5 word, written in a row, are `op` and the packed characters. -/
theorem append_characters_eq (op : BitVec 2) (c0 c1 c2 c3 c4 : Character) :
    op ++ c0 ++ c1 ++ c2 ++ c3 ++ c4 = op ++ packCharacters c0 c1 c2 c3 c4 := by
  simp only [packCharacters, BitVec.append_assoc, BitVec.cast_eq]

/-- Settles O35: in each word the operand is the low end of the payload, or all of it. -/
theorem payloadFieldsDecodeToTheOperands : Obligations.PayloadFieldsDecodeToTheOperands := by
  unfold Obligations.PayloadFieldsDecodeToTheOperands
  refine ⟨fun x b0 b1 b2 b3 => ⟨blockOfBytes b0 b1 b2 b3, ?enc4, blockOfBytes_toNat b0 b1 b2 b3⟩,
    fun c0 c1 c2 c3 c4 => ?dec5, fun x c => ?chk, fun x i => ?sym⟩
  case enc4 => rw [append_bytes_eq, decode_enc4_word, BitVec.extractLsb'_append_eq_right]
  case dec5 => rw [append_characters_eq, decode_dec5_packCharacters]
  case chk => rw [BitVec.append_assoc, BitVec.cast_eq, decode_chk_word, BitVec.extractLsb'_append_eq_right]
  case sym => rw [BitVec.append_assoc, BitVec.cast_eq, decode_sym_word, BitVec.extractLsb'_append_eq_right]

/-! ### Decoding and encoding -/

/-- An operand written into the low end of a payload is read back from there. -/
theorem extractLsb'_setWidth_payload {n : Nat} (h : n ≤ 40) (x : BitVec n) :
    (x.setWidth 40 : Payload).extractLsb' 0 n = x := by
  rw [BitVec.extractLsb'_setWidth_of_le (by omega), BitVec.extractLsb'_eq_self]

theorem decode_encode (i : Instr) : decode (encode i) = i := by
  cases i with
  | enc4 v => exact (decode_enc4_word _).trans (congrArg _ (extractLsb'_setWidth_payload (by decide) v))
  | dec5 c0 c1 c2 c3 c4 => exact decode_dec5_packCharacters c0 c1 c2 c3 c4
  | chk c => exact (decode_chk_word _).trans (congrArg _ (extractLsb'_setWidth_payload (by decide) c))
  | sym i => exact (decode_sym_word _).trans (congrArg _ (extractLsb'_setWidth_payload (by decide) i))

/-- The low bits of a payload that hold the operands of an operation (R63 to R66); the others are ignored (R68). -/
def Operation.operandBits : Operation → Nat
  | .enc4 => 32
  | .dec5 => 40
  | .chk => 8
  | .sym => 7

/-- The payload with 1 in the bits that hold operands. -/
def Operation.operandMask (o : Operation) : Payload := BitVec.ofNat 40 (2 ^ o.operandBits - 1)

/-- The word with 1 in `op` and in the bits that hold operands. -/
def Operation.wordMask (o : Operation) : CommandWord := 0b11#2 ++ o.operandMask

/-- To read the low end of a payload and write it back is to clear all other bits. -/
theorem setWidth_extractLsb'_eq_and {n : Nat} (h : n ≤ 40) (din : Payload) :
    (din.extractLsb' 0 n).setWidth 40 = din &&& BitVec.ofNat 40 (2 ^ n - 1) := by
  have hmask : 2 ^ n - 1 < 2 ^ 40 :=
    Nat.lt_of_lt_of_le (Nat.sub_one_lt (Nat.two_pow_pos n).ne') (Nat.pow_le_pow_right (by decide) h)
  apply BitVec.eq_of_toNat_eq
  rw [BitVec.toNat_setWidth_of_le h, extract_toNat, BitVec.toNat_and, BitVec.toNat_ofNat,
    Nat.mod_eq_of_lt hmask, Nat.and_two_pow_sub_one_eq_mod, Nat.pow_zero, Nat.div_one]

theorem payloadOf_decode_append (o : Operation) (din : Payload) :
    payloadOf (decode (o.code ++ din)) = din &&& o.operandMask := by
  cases o with
  | enc4 => exact (congrArg payloadOf (decode_enc4_word din)).trans (setWidth_extractLsb'_eq_and (by decide) din)
  | dec5 =>
    have hall : din &&& Operation.dec5.operandMask = din := BitVec.and_allOnes
    exact (congrArg payloadOf (decode_dec5_word din)).trans ((pack_characterAt din).trans hall.symm)
  | chk => exact (congrArg payloadOf (decode_chk_word din)).trans (setWidth_extractLsb'_eq_and (by decide) din)
  | sym => exact (congrArg payloadOf (decode_sym_word din)).trans (setWidth_extractLsb'_eq_and (by decide) din)

/-- A mask that keeps `op` acts on the payload alone. -/
theorem append_and_mask (op : BitVec 2) (din mask : Payload) :
    (op ++ din : CommandWord) &&& (0b11#2 ++ mask : CommandWord) = op ++ (din &&& mask) := by
  rw [BitVec.and_append, show op &&& 0b11#2 = op from BitVec.and_allOnes]

theorem encode_decode (cmd : CommandWord) : encode (decode cmd) = cmd &&& (decode cmd).operation.wordMask := by
  obtain ⟨o, din, rfl⟩ := exists_code_append cmd
  rw [encode, operation_decode_append, payloadOf_decode_append, Operation.wordMask, append_and_mask]

/-- Settles O36 by `decode_encode` and `encode_decode`: the masks written out are `Operation.wordMask`. -/
theorem decodeAndEncodeAgree : Obligations.DecodeAndEncodeAgree := by
  unfold Obligations.DecodeAndEncodeAgree
  refine ⟨fun i => ⟨?wf, decode_encode i⟩, fun cmd => ?masked⟩
  case wf => cases i <;> rfl
  case masked =>
    rw [encode_decode]
    cases (decode cmd).operation <;> rfl

/-! ### The row a word selects -/

/-- The match value of an operation's row in the opcode table (R62). -/
def Operation.matchWord (o : Operation) : CommandWord := o.code ++ 0#40

theorem and_mask_eq_matchWord (cmd : CommandWord) :
    cmd &&& 0x30000000000#42 = (decode cmd).operation.matchWord := by
  obtain ⟨o, din, rfl⟩ := exists_code_append cmd
  rw [operation_decode_append]
  exact Laws.mask_append o.code din

theorem Operation.matchWord_injective {o o' : Operation} (h : o.matchWord = o'.matchWord) : o = o' := by
  have hcode : o.code = o'.code := by simpa [matchWord] using congrArg opField h
  simpa using congrArg operationOf hcode

theorem and_mask_eq_matchWord_iff (cmd : CommandWord) (o : Operation) :
    cmd &&& 0x30000000000#42 = o.matchWord ↔ (decode cmd).operation = o := by
  rw [and_mask_eq_matchWord]
  exact ⟨Operation.matchWord_injective, congrArg _⟩

/-- Settles O34: the four match values are those of `Operation.matchWord`. -/
theorem exactlyOneTableRowMatchesEveryWord : Obligations.ExactlyOneTableRowMatchesEveryWord := by
  unfold Obligations.ExactlyOneTableRowMatchesEveryWord
  intro cmd
  refine ⟨and_mask_eq_matchWord_iff cmd .enc4, and_mask_eq_matchWord_iff cmd .dec5, and_mask_eq_matchWord_iff cmd .chk,
    and_mask_eq_matchWord_iff cmd .sym, (decode cmd).operation.matchWord, ?mem, and_mask_eq_matchWord cmd,
    fun m' _ hm' => hm'.symm.trans (and_mask_eq_matchWord cmd)⟩
  case mem => cases (decode cmd).operation <;> decide

/-! ### The ignored bits -/

theorem opField_and_wordMask (cmd : CommandWord) (o : Operation) : opField (cmd &&& o.wordMask) = opField cmd := by
  obtain ⟨o', din, rfl⟩ := exists_code_append cmd
  rw [Operation.wordMask, append_and_mask, opField_append, opField_append]

/-- Words of one operation that agree outside its ignored bits are the same instruction: they are encoded alike. -/
theorem decode_eq_of_and_wordMask_eq {cmd cmd' : CommandWord} {o : Operation} (ho : (decode cmd).operation = o)
    (h : cmd &&& o.wordMask = cmd' &&& o.wordMask) : decode cmd = decode cmd' := by
  have hop : opField cmd = opField cmd' := by rw [← opField_and_wordMask cmd o, h, opField_and_wordMask]
  have ho' : (decode cmd').operation = o := by rw [← ho, operation_decode, operation_decode, hop]
  have henc : encode (decode cmd) = encode (decode cmd') := by rw [encode_decode, encode_decode, ho, ho', h]
  rw [← decode_encode (decode cmd), henc, decode_encode]

/-- Settles O37: the two steps execute the same instruction (`decode_eq_of_and_wordMask_eq`) on the same state. -/
theorem ignoredPayloadBitsHaveNoEffect : Obligations.IgnoredPayloadBitsHaveNoEffect := by
  unfold Obligations.IgnoredPayloadBitsHaveNoEffect
  rintro cmd cmd' s s' t rest hagree hp rfl hstep
  have hdecode : decode cmd = decode cmd' := by
    obtain ⟨hrow, hbits⟩ | ⟨hrow, hbits⟩ | ⟨hrow, hbits⟩ := hagree
    · exact decode_eq_of_and_wordMask_eq ((and_mask_eq_matchWord_iff cmd .enc4).mp hrow) hbits
    · exact decode_eq_of_and_wordMask_eq ((and_mask_eq_matchWord_iff cmd .chk).mp hrow) hbits
    · exact decode_eq_of_and_wordMask_eq ((and_mask_eq_matchWord_iff cmd .sym).mp hrow) hbits
  rw [step_issue rfl, ← hdecode, ← step_issue hp]
  exact hstep

/-! ### Words of the spec -/

/-- Settles O38, by evaluating the decoder on each word. -/
theorem wordsOfTheSpecDecode : Obligations.WordsOfTheSpecDecode := by
  unfold Obligations.WordsOfTheSpecDecode
  exact ⟨by decide, by decide, by decide, by decide, by decide, by decide, by decide, by decide, by decide⟩

end Sys2Proof
end

section
/-! PROOF. The assembler (30_encoding.md R70): the words of the written forms, and the hex forms read back from text. -/

namespace Sys2Proof.Machine

/-! ### Written commands -/

/-- An ENC4 word has 0 in its eight ignored bits. -/
theorem encode_enc4 (v : BlockValue) : encode (.enc4 v) = 0b00#2 ++ (0x00#8 ++ v : Payload) :=
  congrArg (0b00#2 ++ · : Payload → CommandWord) (BitVec.setWidth_eq_append (show 32 ≤ 40 by decide))

/-- Numbers that are bytes fit the fields of bytes and of characters. -/
theorem all_toNat_lt (bs : List Byte) : ((bs.map BitVec.toNat).all fun b => decide (b < 2 ^ 8)) = true := by
  rw [List.all_map]
  exact List.all_eq_true.mpr fun b _ => decide_eq_true b.isLt

theorem assembleWritten_enc4Word (v : BlockValue) : assembleWritten (.enc4Word v.toNat) = some (.enc4 v) := by
  have hwf : (WrittenCommand.enc4Word v.toNat).wellFormed = true := decide_eq_true v.isLt
  rw [assembleWritten, if_pos hwf, BitVec.ofNat_toNat, BitVec.setWidth_eq]

theorem assembleWritten_enc4Bytes (b0 b1 b2 b3 : Byte) :
    assembleWritten (.enc4Bytes b0.toNat b1.toNat b2.toNat b3.toNat) = some (.enc4 (blockOfBytes b0 b1 b2 b3)) := by
  have hwf : (WrittenCommand.enc4Bytes b0.toNat b1.toNat b2.toNat b3.toNat).wellFormed = true :=
    all_toNat_lt [b0, b1, b2, b3]
  simp [assembleWritten, hwf, blockOfBytes]

theorem assembleWritten_dec5Text (c0 c1 c2 c3 c4 : Character) :
    assembleWritten (.dec5Text [c0.toNat, c1.toNat, c2.toNat, c3.toNat, c4.toNat]) = some (.dec5 c0 c1 c2 c3 c4) := by
  have hwf : (WrittenCommand.dec5Text [c0.toNat, c1.toNat, c2.toNat, c3.toNat, c4.toNat]).wellFormed = true :=
    all_toNat_lt [c0, c1, c2, c3, c4]
  simp [assembleWritten, hwf]

theorem assembleWritten_dec5Word (din : Payload) :
    assembleWritten (.dec5Word din.toNat) = some (decode (0b01#2 ++ din)) := by
  have hwf : (WrittenCommand.dec5Word din.toNat).wellFormed = true := decide_eq_true din.isLt
  rw [assembleWritten, if_pos hwf, BitVec.ofNat_toNat, BitVec.setWidth_eq, decode_dec5_word]

theorem assembleWritten_chk (c : Character) : assembleWritten (.chk c.toNat) = some (.chk c) := by
  have hwf : (WrittenCommand.chk c.toNat).wellFormed = true := decide_eq_true c.isLt
  rw [assembleWritten, if_pos hwf, BitVec.ofNat_toNat, BitVec.setWidth_eq]

theorem assembleWritten_sym {n : Nat} (h : n ≤ 127) : assembleWritten (.sym n) = some (.sym (BitVec.ofNat 7 n)) := by
  have hwf : (WrittenCommand.sym n).wellFormed = true := decide_eq_true h
  rw [assembleWritten, if_pos hwf]

/-- The word of a DEC5 whose payload is given has no ignored bits to clear. -/
theorem encode_decode_dec5_word (din : Payload) : encode (decode (0b01#2 ++ din)) = 0b01#2 ++ din := by
  rw [decode_dec5_word]
  exact congrArg (0b01#2 ++ ·) (pack_characterAt din)

/-- A well-formed text of DEC5 has five characters, and so it has a command. -/
theorem assembleWritten_dec5Text_ne_none {codes : List Nat} (h : (WrittenCommand.dec5Text codes).wellFormed = true) :
    assembleWritten (.dec5Text codes) ≠ none := by
  have hlen : codes.length = 5 := of_decide_eq_true (Bool.and_elim_left h)
  match codes, hlen with
  | [c0, c1, c2, c3, c4], _ =>
    rw [assembleWritten, if_pos h]
    exact Option.some_ne_none _

/-- A written command is refused exactly when one of its numbers does not fit (log entries 15 and 17). -/
theorem assembleWritten_eq_none_iff (w : WrittenCommand) : assembleWritten w = none ↔ w.wellFormed = false := by
  cases hwf : w.wellFormed with
  | false => simp [assembleWritten, hwf]
  | true =>
    suffices assembleWritten w ≠ none by simpa
    cases w with
    | dec5Text codes => exact assembleWritten_dec5Text_ne_none hwf
    | enc4Word v | enc4Bytes b0 b1 b2 b3 | dec5Word din | chk c | sym n =>
      rw [assembleWritten, if_pos hwf]
      exact Option.some_ne_none _

/-- A 7-bit index in a payload, as the number it is. -/
theorem setWidth_ofNat_index {n : Nat} (h : n ≤ 127) : (BitVec.ofNat 7 n).setWidth 40 = BitVec.ofNat 40 n := by
  apply BitVec.eq_of_toNat_eq
  rw [BitVec.toNat_setWidth, BitVec.toNat_ofNat, BitVec.toNat_ofNat]
  omega

/-- Settles O40: each form gives its instruction, whose encoding is the word that R70 writes. -/
theorem writtenFormsAssembleToTheirWords : Obligations.WrittenFormsAssembleToTheirWords := by
  unfold Obligations.WrittenFormsAssembleToTheirWords
  refine ⟨fun v => ?enc4Word, fun b0 b1 b2 b3 => ?enc4Bytes, fun c0 c1 c2 c3 c4 => ?dec5Text, fun din => ?dec5Word,
    fun c => ?chk, fun n hn => ?sym, assembleWritten_eq_none_iff⟩
  case enc4Word => rw [assembleWritten_enc4Word, Option.map_some, encode_enc4, BitVec.append_assoc, BitVec.cast_eq]
  case enc4Bytes => rw [assembleWritten_enc4Bytes, Option.map_some, encode_enc4, append_bytes_eq]
  case dec5Text => rw [assembleWritten_dec5Text, append_characters_eq]; rfl
  case dec5Word => rw [assembleWritten_dec5Word, Option.map_some, encode_decode_dec5_word]
  case chk => rw [assembleWritten_chk]; rfl
  case sym => rw [assembleWritten_sym hn, ← setWidth_ofNat_index hn]; rfl

/-! ### Hex digits -/

/-- A hex digit is read back from the character that writes it. -/
theorem hexDigitValue_hexDigit {d : Nat} (h : d < 16) : hexDigitValue (hexDigit d) = some d := by
  have hall : ∀ d : Fin 16, hexDigitValue (hexDigit d.val) = some d.val := by decide
  exact hall ⟨d, h⟩

theorem length_hexDigitsText (n v : Nat) : (hexDigitsText n v).length = n := by
  induction n with
  | zero => rfl
  | succ n ih => rw [hexDigitsText, List.length_cons, ih]

/-- `n` hex digits of `v` are read as the last `n` digits of `v`, after what was read before them. -/
theorem hexDigits_hexDigitsText (n acc v : Nat) :
    hexDigits n acc (hexDigitsText n v) = some (acc * 16 ^ n + v % 16 ^ n, []) := by
  induction n generalizing acc with
  | zero => simp [hexDigits, hexDigitsText, Nat.mod_one]
  | succ n ih =>
    have hdigit : v / 16 ^ n % 16 < 16 := Nat.mod_lt _ (by decide)
    simp only [hexDigitsText, hexDigits, hexDigitValue_hexDigit hdigit, ih]
    rw [Nat.mod_pow_succ]
    congr 2
    ring

theorem hexNumber_hexText {n v : Nat} (h : v < 16 ^ n) : hexNumber n (hexText n v) = some (v, []) := by
  rw [hexText, hexNumber, hexDigits_hexDigitsText, Nat.zero_mul, Nat.zero_add, Nat.mod_eq_of_lt h]

/-! ### Lines -/

/-- A line that is one command to its end assembles to the word of that command. -/
theorem assembleLine_eq_command {line : List Char} {w : WrittenCommand} {i : Instr} (hline : atLineEnd line = false)
    (hread : writtenCommand (skipBlanks line) = some (w, [])) (hw : assembleWritten w = some i) :
    assembleLine line = .command (encode i) := by
  have hend : atLineEnd [] = true := rfl
  simp [assembleLine, hline, hread, hw, hend]

theorem enc4Operands_hexText {v : Nat} (h : v < 16 ^ 8) : enc4Operands (hexText 8 v) = some (.enc4Word v, []) := by
  rw [enc4Operands, hexNumber_hexText h]

theorem dec5Operand_hexText {v : Nat} (h : v < 16 ^ 10) : dec5Operand (hexText 10 v) = some (.dec5Word v, []) := by
  have hnumber := hexNumber_hexText h
  rw [hexText] at hnumber ⊢
  simp [dec5Operand, hnumber]

theorem chkOperand_hexText {v : Nat} (h : v < 16 ^ 2) : chkOperand (hexText 2 v) = some (.chk v, []) := by
  have hnumber := hexNumber_hexText h
  rw [hexText] at hnumber ⊢
  simp [chkOperand, hnumber]

theorem assembleLine_enc4_hexText (v : BlockValue) :
    assembleLine ('E' :: 'N' :: 'C' :: '4' :: ' ' :: hexText 8 v.toNat) = .command (encode (.enc4 v)) :=
  assembleLine_eq_command rfl (enc4Operands_hexText v.isLt) (assembleWritten_enc4Word v)

theorem assembleLine_dec5_hexText (din : Payload) :
    assembleLine ('D' :: 'E' :: 'C' :: '5' :: ' ' :: hexText 10 din.toNat) =
      .command (encode (decode (0b01#2 ++ din))) :=
  assembleLine_eq_command rfl (dec5Operand_hexText din.isLt) (assembleWritten_dec5Word din)

theorem assembleLine_chk_hexText (c : Character) :
    assembleLine ('C' :: 'H' :: 'K' :: ' ' :: hexText 2 c.toNat) = .command (encode (.chk c)) :=
  assembleLine_eq_command rfl (chkOperand_hexText c.isLt) (assembleWritten_chk c)

/-- Settles O41: a hex number is read back from its text (`hexNumber_hexText`), and the line that holds it is the
command of that number. -/
theorem assemblerReadsTheHexFormsBack : Obligations.AssemblerReadsTheHexFormsBack := by
  unfold Obligations.AssemblerReadsTheHexFormsBack
  refine ⟨fun v => ?enc4, fun din => ?dec5, assembleLine_chk_hexText, fun cmd => ⟨?length, ?value⟩⟩
  case enc4 => rw [assembleLine_enc4_hexText, encode_enc4, BitVec.append_assoc, BitVec.cast_eq]
  case dec5 => rw [assembleLine_dec5_hexText, encode_decode_dec5_word]
  case length => rw [commandText, hexText, List.length_cons, List.length_cons, length_hexDigitsText]
  case value => exact hexNumber_hexText (Nat.lt_of_lt_of_le cmd.isLt (by decide))

end Sys2Proof.Machine
end

section
/-! PROOF. The alphabet lookups (40_alphabet_lookup.md): what CHK answers (R80) and what SYM answers (R81), the
alphabet as the one oracle of validity (R82), and the two lookups as inverses of each other (R83). -/

namespace Sys2Proof.Machine

/-! ### The words of the lookups -/

/-- A word that matches the row of an operation is its code and a payload (30_encoding.md R62). -/
theorem eq_code_append_of_row {cmd : CommandWord} {o : Operation} (h : cmd &&& 0x30000000000#42 = o.matchWord) :
    ∃ din : Payload, cmd = o.code ++ din := by
  obtain ⟨o', din, rfl⟩ := exists_code_append cmd
  have ho := (and_mask_eq_matchWord_iff _ o).mp h
  rw [operation_decode_append] at ho
  exact ⟨din, by rw [ho]⟩

/-- The low end of a word lies in its payload. -/
theorem extractLsb'_word (op : BitVec 2) (din : Payload) {n : Nat} (h : n ≤ 40) :
    (op ++ din : CommandWord).extractLsb' 0 n = din.extractLsb' 0 n :=
  BitVec.extractLsb'_append_eq_of_add_le (by omega)

theorem decode_of_chk_row {cmd : CommandWord} (h : cmd &&& 0x30000000000#42 = 0x20000000000#42) :
    decode cmd = .chk (cmd.extractLsb' 0 8) := by
  obtain ⟨din, rfl⟩ := eq_code_append_of_row (o := .chk) h
  rw [extractLsb'_word _ _ (by decide)]
  exact decode_chk_word din

theorem decode_of_sym_row {cmd : CommandWord} (h : cmd &&& 0x30000000000#42 = 0x30000000000#42) :
    decode cmd = .sym (cmd.extractLsb' 0 7) := by
  obtain ⟨din, rfl⟩ := eq_code_append_of_row (o := .sym) h
  rw [extractLsb'_word _ _ (by decide)]
  exact decode_sym_word din

/-! ### What the lookups answer -/

/-- CHK of the symbol at an index: bit 7 and the index. -/
theorem exec_chk_of_getElem? {c : Character} {d : Nat} (h : alphabet[d]? = some c) (s : State) :
    exec (.chk c) s = .next (s.respond (BitVec.ofNat 40 (0x80 + d)) 0x01#8) := by
  have hd : d < 85 := alphabet_length ▸ (List.getElem?_eq_some_iff.mp h).1
  have hentry : (dmapEntry c).toNat = 0x80 + d :=
    dmapEntry_toNat_of_dmap (d := ⟨d, hd⟩) (dmap_eq_some_iff.mpr h)
  have hresult : 0#32 ++ dmapEntry c = BitVec.ofNat 40 (0x80 + d) := by
    apply BitVec.eq_of_toNat_eq
    rw [append_toNat, hentry, BitVec.toNat_ofNat, BitVec.toNat_ofNat]
    omega
  rw [exec_chk, hresult]
  rfl

theorem exec_chk_of_not_mem {c : Character} (h : c ∉ alphabet) (s : State) :
    exec (.chk c) s = .next (s.respond 0#40 0x01#8) := by
  rw [exec_chk, dmapEntry_of_dmap_none ((dmap_eq_none_iff_not_mem c).mpr h)]
  rfl

/-- SYM of an index that is a digit: its symbol with zeros above it. -/
theorem exec_sym_of_toNat_eq {idx : SymbolIndex} {d : Digit} (h : idx.toNat = d.val) (s : State) :
    exec (.sym idx) s = .next (s.respond (0#32 ++ symbolAt d) 0x01#8) := by
  have hidx : idx.toNat < 85 := h ▸ d.isLt
  obtain rfl : ⟨idx.toNat, hidx⟩ = d := Fin.ext h
  have hzeros : (symbolAt ⟨idx.toNat, hidx⟩).setWidth 40 = 0#32 ++ symbolAt ⟨idx.toNat, hidx⟩ :=
    BitVec.setWidth_eq_append (by decide)
  rw [exec, execSym, dif_pos hidx, hzeros, State.complete, statusByte_success]
  rfl

theorem exec_sym_of_gt {idx : SymbolIndex} (h : 84 < idx.toNat) (s : State) :
    exec (.sym idx) s = .next (s.respond 0#40 0x0F#8) := by
  rw [exec, execSym, dif_neg (by omega)]
  rfl

/-- Settles O27 by the two answers of CHK (`exec_chk_of_getElem?`, `exec_chk_of_not_mem`); the corner cases and the
example follow from them. -/
theorem chkAnswersValidityAndValue : Obligations.ChkAnswersValidityAndValue := by
  unfold Obligations.ChkAnswersValidityAndValue
  have hunused : ∀ c ∈ [0x22#8, 0x5C#8, 0x7F#8, 0x20#8, 0x00#8], c ∉ alphabet := by decide
  have hexample : decode 0x20000000048#42 = .chk 0x48#8 := by decide
  refine ⟨fun _ => decode_of_chk_row, fun _ s _ h => exec_chk_of_getElem? h s, fun _ s h => exec_chk_of_not_mem h s,
    fun s => ⟨?zero, ?largest, fun c hc => exec_chk_of_not_mem (hunused c hc) s, fun c hc => ?wide, ?ofTheRule⟩⟩
  case zero => exact exec_chk_of_getElem? (d := 0) (by decide) s
  case largest => exact exec_chk_of_getElem? (d := 84) (by decide) s
  case wide =>
    have hnone : dmap c = none := dmap_eq_none_of_not_printable (.inr (.inr hc))
    exact exec_chk_of_not_mem ((dmap_eq_none_iff_not_mem c).mp hnone) s
  case ofTheRule =>
    rw [hexample]
    exact exec_chk_of_getElem? (d := 43) (by decide) s

/-- Settles O28 by the two answers of SYM (`exec_sym_of_toNat_eq`, `exec_sym_of_gt`); the corner cases and the example
follow from them. -/
theorem symAnswersTheSymbolOrRange : Obligations.SymAnswersTheSymbolOrRange := by
  unfold Obligations.SymAnswersTheSymbolOrRange
  have hexample : decode 0x3000000002B#42 = .sym 43#7 := by decide
  refine ⟨fun _ => decode_of_sym_row, fun i s hi => ?symbol, fun _ s hi => exec_sym_of_gt hi s,
    fun s => ⟨?first, ?last, exec_sym_of_gt (by decide) s, exec_sym_of_gt (by decide) s, ?ofTheRule⟩⟩
  case symbol =>
    have hdigit : i.toNat < 85 := by omega
    exact ⟨symbolAt ⟨i.toNat, hdigit⟩, getElem?_alphabet ⟨i.toNat, hdigit⟩, exec_sym_of_toNat_eq rfl s⟩
  case first => exact exec_sym_of_toNat_eq (d := 0) (by decide) s
  case last => exact exec_sym_of_toNat_eq (d := 84) (by decide) s
  case ofTheRule =>
    rw [hexample]
    exact exec_sym_of_toNat_eq (d := 43) (by decide) s

/-! ### The oracle of validity -/

/-- Bit 7 of what CHK answers says whether the character is in the alphabet (R82). -/
theorem chk_bit7_iff {c : Character} {s u : State} {r : ResultWord} (h : exec (.chk c) s = .next u)
    (hr : u.result = some r) : r.getLsbD 7 = true ↔ c ∈ alphabet := by
  by_cases hc : c ∈ alphabet
  · obtain ⟨d, rfl⟩ := (mem_alphabet_iff c).mp hc
    have hbit7 : ∀ d : Digit, (BitVec.ofNat 40 (0x80 + d.val)).getLsbD 7 = true := by decide
    obtain rfl := Host.Outcome.next.inj ((exec_chk_of_getElem? (getElem?_alphabet d) s).symm.trans h)
    obtain rfl := Option.some.inj hr
    exact iff_of_true (hbit7 d) hc
  · obtain rfl := Host.Outcome.next.inj ((exec_chk_of_not_mem hc s).symm.trans h)
    obtain rfl := Option.some.inj hr
    exact iff_of_false (by decide) hc

/-- CHK answers bit 7 = 0 exactly for the characters outside the alphabet. -/
theorem chk_bit7_false_iff (c : Character) (s : State) :
    (∀ u r, exec (.chk c) s = .next u → u.result = some r → r.getLsbD 7 = false) ↔ c ∉ alphabet := by
  constructor
  · intro h hc
    have hzero := h _ _ (exec_chk c s) rfl
    rw [(chk_bit7_iff (exec_chk c s) rfl).mpr hc] at hzero
    cases hzero
  · intro hc u r hu hr
    exact Bool.eq_false_iff.mpr fun hbit => hc ((chk_bit7_iff hu hr).mp hbit)

theorem failsWith_invalidChar_dec5_iff {s : State} {c0 c1 c2 c3 c4 : Character} :
    FailsWith s (.dec5 c0 c1 c2 c3 c4) .invalidChar ↔ ∃ c ∈ [c0, c1, c2, c3, c4], c ∉ alphabet := by
  constructor
  · rintro ⟨hmem, hc⟩
    exact ⟨_, hmem, hc⟩
  · rintro ⟨c, hmem, hc⟩
    exact .invalidChar hmem hc

/-- Settles O29: bit 7 of CHK (`chk_bit7_iff`), an entry of DMAP and the CAUSE of DEC5 (`statusCause_eq_code_iff`) each
say whether a character is in the alphabet. -/
theorem alphabetIsTheOnlyValidityOracle : Obligations.AlphabetIsTheOnlyValidityOracle := by
  unfold Obligations.AlphabetIsTheOnlyValidityOracle
  refine ⟨fun c s => ?chk, fun c0 c1 c2 c3 c4 s => ?dec5⟩
  case chk =>
    have hbit7 := chk_bit7_iff (exec_chk c s) rfl
    have hdmap : c ∈ alphabet ↔ dmap c ≠ none := by rw [ne_eq, dmap_eq_none_iff_not_mem, not_not]
    exact ⟨_, _, exec_chk c s, rfl, hbit7, hbit7.trans hdmap⟩
  case dec5 =>
    obtain ⟨r, b, hexec, -⟩ := exec_same_response (s := s) rfl (.dec5 c0 c1 c2 c3 c4)
    refine ⟨_, hexec, ?_⟩
    simp only [chk_bit7_false_iff]
    exact (statusCause_eq_code_iff hexec (by decide)).trans failsWith_invalidChar_dec5_iff

/-! ### The lookups as inverses -/

/-- The low seven bits of what CHK answers for a symbol are its index. -/
theorem chk_result_index (d : Digit) : ((BitVec.ofNat 40 (0x80 + d.val)).extractLsb' 0 7).toNat = d.val := by
  rw [extract_toNat, BitVec.toNat_ofNat]
  omega

/-- Settles O30: either way round, the second lookup is given the digit or the symbol that the first one answered. -/
theorem symAndChkInvertEachOther : Obligations.SymAndChkInvertEachOther := by
  unfold Obligations.SymAndChkInvertEachOther
  refine ⟨fun i s hi => ?chkOfSym, fun c s hc => ?symOfChk⟩
  case chkOfSym =>
    have hdigit : i.toNat < 85 := by omega
    have hlow : alphabet[i.toNat]? = some ((0#32 ++ symbolAt ⟨i.toNat, hdigit⟩).extractLsb' 0 8) := by
      rw [BitVec.extractLsb'_append_eq_right]
      exact getElem?_alphabet ⟨i.toNat, hdigit⟩
    exact ⟨_, _, _, exec_sym_of_toNat_eq rfl s, rfl, exec_chk_of_getElem? hlow _, rfl⟩
  case symOfChk =>
    obtain ⟨d, rfl⟩ := (mem_alphabet_iff c).mp hc
    exact ⟨_, _, _, exec_chk_of_getElem? (getElem?_alphabet d) s, rfl, exec_sym_of_toNat_eq (chk_result_index d) _, rfl⟩

end Sys2Proof.Machine
end

section
/-! PROOF. The block encoder (41_block_encoder.md): the digits of V (R91, R92), what ENC4 answers (R90), its image as
what DEC5 accepts under REJECT (R93), and the characters that ENC4 and SYM put out (R94). -/

namespace Sys2Proof.Machine

/-! ### The digits of V -/

/-- The digits of V from the most significant have the value V (R91). -/
theorem groupValue_digits (v : BlockValue) :
    groupValue (digit v 4) (digit v 3) (digit v 2) (digit v 1) (digit v 0) = v.toNat := by
  rw [← horner_eq_groupValue, horner_digits]

/-- No other five digits have the value V (R91). -/
theorem eq_digits_of_groupValue {v : BlockValue} {d0 d1 d2 d3 d4 : Digit} (h : groupValue d0 d1 d2 d3 d4 = v.toNat) :
    d0 = digit v 4 ∧ d1 = digit v 3 ∧ d2 = digit v 2 ∧ d3 = digit v 1 ∧ d4 = digit v 0 := by
  unfold groupValue at h
  refine ⟨?_, ?_, ?_, ?_, ?_⟩ <;> apply Fin.ext <;> simp only [digit] <;> omega

/-- The leading digit needs no reduction, because `2^32` is below `83 * 85^4` (R92). -/
theorem digit_four_val (v : BlockValue) : (digit v 4).val = v.toNat / 85 ^ 4 := by
  have := v.isLt
  simp only [digit]
  omega

/-- The circuit from the bottom up, by repeated division by 85 (R91). -/
theorem digits_by_repeated_division (v : BlockValue) :
    (digit v 0).val = v.toNat % 85 ∧ (digit v 1).val = v.toNat / 85 % 85 ∧
      (digit v 2).val = v.toNat / 85 / 85 % 85 ∧ (digit v 3).val = v.toNat / 85 / 85 / 85 % 85 ∧
      (digit v 4).val = v.toNat / 85 / 85 / 85 / 85 % 85 := by
  simp only [digit, Nat.div_div_eq_div_mul]
  exact ⟨by rw [pow_zero, Nat.div_one], rfl, rfl, rfl, rfl⟩

/-- The circuit from the top down, by the constants 85^4 to 85 (R91): each remainder is the value of the digits still
to come. -/
theorem digits_by_constants (v : BlockValue) :
    (digit v 4).val = v.toNat / 52200625 ∧ (digit v 3).val = v.toNat % 52200625 / 614125 ∧
      (digit v 2).val = v.toNat % 52200625 % 614125 / 7225 ∧
      (digit v 1).val = v.toNat % 52200625 % 614125 % 7225 / 85 ∧
      (digit v 0).val = v.toNat % 52200625 % 614125 % 7225 % 85 := by
  have hsum := groupValue_digits v
  unfold groupValue at hsum
  have h3 : v.toNat % 52200625 =
      (digit v 3).val * 614125 + (digit v 2).val * 7225 + (digit v 1).val * 85 + (digit v 0).val := by omega
  have h2 : v.toNat % 52200625 % 614125 = (digit v 2).val * 7225 + (digit v 1).val * 85 + (digit v 0).val := by omega
  have h1 : v.toNat % 52200625 % 614125 % 7225 = (digit v 1).val * 85 + (digit v 0).val := by omega
  refine ⟨?_, ?_, ?_, ?_, ?_⟩ <;> omega

/-- Settles O17. -/
theorem leadingDigitIsAtMost82 : Obligations.LeadingDigitIsAtMost82 := by
  unfold Obligations.LeadingDigitIsAtMost82
  refine ⟨fun v => ⟨?atMost82, digit_four_val v⟩, by decide⟩
  case atMost82 =>
    have := v.isLt
    rw [digit_four_val]
    omega

/-- Settles O16: the five digits exist (`groupValue_digits`), are the only ones (`eq_digits_of_groupValue`), and come
out of both circuits. -/
theorem blockDigitsExistAndAreUnique : Obligations.BlockDigitsExistAndAreUnique := by
  unfold Obligations.BlockDigitsExistAndAreUnique
  exact ⟨fun v => ⟨groupValue_digits v, fun k => Nat.le_of_lt_succ (digit v k).isLt,
    fun _ _ _ _ _ => eq_digits_of_groupValue, digits_by_repeated_division v, digits_by_constants v⟩,
    by norm_num, by norm_num, by norm_num, by norm_num⟩

/-! ### What ENC4 answers -/

/-- ENC4 completes with the characters of V, whatever V is (R90). -/
theorem exec_enc4_of_encodedBlock {v : BlockValue} {r : ResultWord} (h : encodedBlock v = r) (s : State) :
    exec (.enc4 v) s = .next (s.respond r 0x01#8) := by
  rw [← h, ← statusByte_success]
  rfl

theorem decode_of_enc4_row {cmd : CommandWord} (h : cmd &&& 0x30000000000#42 = 0x00000000000#42) :
    decode cmd = .enc4 (cmd.extractLsb' 0 32) := by
  obtain ⟨din, rfl⟩ := eq_code_append_of_row (o := .enc4) h
  rw [extractLsb'_word _ _ (by decide)]
  exact decode_enc4_word din

/-- Settles O15: the digits are read through ALPHABET (`getElem?_alphabet`), and the corner cases are values of
`encodedBlock`. -/
theorem enc4EncodesEveryBlock : Obligations.Enc4EncodesEveryBlock := by
  unfold Obligations.Enc4EncodesEveryBlock
  refine ⟨fun _ => decode_of_enc4_row, fun v s => ?everyBlock, fun s => ?cornerCases⟩
  case everyBlock =>
    exact ⟨_, _, _, _, _, getElem?_alphabet (digit v 4), getElem?_alphabet (digit v 3), getElem?_alphabet (digit v 2),
      getElem?_alphabet (digit v 1), getElem?_alphabet (digit v 0), exec_enc4_of_encodedBlock rfl s⟩
  case cornerCases =>
    exact ⟨exec_enc4_of_encodedBlock (by decide) s, exec_enc4_of_encodedBlock (by decide) s,
      exec_enc4_of_encodedBlock (by decide) s, exec_enc4_of_encodedBlock (by decide) s,
      exec_enc4_of_encodedBlock (by decide) s⟩

/-! ### ENC4 and DEC5 -/

/-- Five digits of value V are encoded as V is. -/
theorem encodedBlock_of_groupValue {v : BlockValue} {d0 d1 d2 d3 d4 : Digit}
    (h : groupValue d0 d1 d2 d3 d4 = v.toNat) :
    encodedBlock v =
      packCharacters (symbolAt d0) (symbolAt d1) (symbolAt d2) (symbolAt d3) (symbolAt d4) := by
  obtain ⟨rfl, rfl, rfl, rfl, rfl⟩ := eq_digits_of_groupValue h
  rfl

/-- DEC5 of the characters of V gives V back, under either policy. -/
theorem exec_dec5_encodedBlock (v : BlockValue) (s : State) :
    exec (decode (0b01#2 ++ encodedBlock v)) s = .next (s.complete (v.setWidth 40)) := by
  have hvalue := groupValue_digits v
  have := v.isLt
  rw [encodedBlock, decode_dec5_packCharacters]
  exact exec_dec5_of_fits_or_wrap (by omega) (.inl (by omega))

/-- A block is read back from its characters, so no two blocks have the same ones (R93). -/
theorem encodedBlock_injective : Function.Injective encodedBlock := by
  intro v w h
  have hback := exec_dec5_encodedBlock v State.reset
  rw [h, exec_dec5_encodedBlock w] at hback
  have hwide : w.setWidth 40 = v.setWidth 40 :=
    Option.some.inj (congrArg State.result (Host.Outcome.next.inj hback))
  simpa [BitVec.setWidth_setWidth_of_le] using congrArg (BitVec.setWidth 32) hwide.symm

/-- A group that DEC5 accepts is the symbols of five digits, and under REJECT their value fits 32 bits. -/
theorem DecodesWithoutError.exists_digits {s : State} {g : Payload} (h : DecodesWithoutError s g)
    (hpolicy : s.config.overflowPolicy = .reject) :
    ∃ d0 d1 d2 d3 d4,
      g = packCharacters (symbolAt d0) (symbolAt d1) (symbolAt d2) (symbolAt d3) (symbolAt d4) ∧
        groupValue d0 d1 d2 d3 d4 ≤ 0xFFFFFFFF := by
  obtain ⟨t, ht, herr⟩ := h
  rw [decode_dec5_word] at ht
  obtain ⟨p, c, hexec, -⟩ | ⟨d0, d1, d2, d3, d4, hsymbols, hexec⟩ := exec_dec5_cases
    (characterAt g 0) (characterAt g 1) (characterAt g 2) (characterAt g 3) (characterAt g 4) s
  · obtain rfl := Host.Outcome.next.inj (hexec.symm.trans ht)
    simp at herr
  · obtain rfl := Host.Outcome.next.inj (hexec.symm.trans ht)
    simp only [List.map_cons, List.map_nil, List.cons.injEq, and_true] at hsymbols
    obtain ⟨h0, h1, h2, h3, h4⟩ := hsymbols
    refine ⟨d0, d1, d2, d3, d4, by rw [← h0, ← h1, ← h2, ← h3, ← h4, pack_characterAt], ?_⟩
    by_contra hover
    rw [State.finishDec5_of_reject (by omega) hpolicy] at herr
    simp at herr

/-- Under REJECT, DEC5 accepts exactly the characters of the blocks (R93, 42_block_decoder.md R108). -/
theorem decodesWithoutError_iff {s : State} (hpolicy : s.config.overflowPolicy = .reject) (g : Payload) :
    DecodesWithoutError s g ↔ ∃ v, encodedBlock v = g := by
  constructor
  · intro h
    obtain ⟨d0, d1, d2, d3, d4, rfl, hfits⟩ := h.exists_digits hpolicy
    refine ⟨BitVec.ofNat 32 (groupValue d0 d1 d2 d3 d4), encodedBlock_of_groupValue ?_⟩
    rw [BitVec.toNat_ofNat, Nat.mod_eq_of_lt (by omega)]
  · rintro ⟨v, rfl⟩
    exact ⟨_, exec_dec5_encodedBlock v s, by simp⟩

/-- Settles O18: RESULT of ENC4 is `encodedBlock v`, which is injective (`encodedBlock_injective`) and whose values are
what DEC5 accepts (`decodesWithoutError_iff`). -/
theorem enc4IsInjectiveOntoTheAcceptedGroups : Obligations.Enc4IsInjectiveOntoTheAcceptedGroups := by
  unfold Obligations.Enc4IsInjectiveOntoTheAcceptedGroups
  refine ⟨fun v w s t u ht hu hresult => ?injective, fun s g hpolicy => ?image⟩
  case injective =>
    obtain rfl := Host.Outcome.next.inj ht
    obtain rfl := Host.Outcome.next.inj hu
    exact encodedBlock_injective (Option.some.inj hresult)
  case image =>
    rw [decodesWithoutError_iff hpolicy]
    constructor
    · rintro ⟨v, rfl⟩
      exact ⟨v, _, rfl, rfl⟩
    · rintro ⟨v, t, ht, hresult⟩
      obtain rfl := Host.Outcome.next.inj ht
      exact ⟨v, Option.some.inj hresult⟩

/-! ### The characters put out -/

/-- The character at position p of a RESULT of ENC4 is the symbol of `digit_(4-p)` (R90). -/
theorem characterAt_encodedBlock (v : BlockValue) {p : Nat} (hp : p < 5) :
    characterAt (encodedBlock v) p = symbolAt (digit v (4 - p)) := by
  obtain ⟨h0, h1, h2, h3, h4⟩ := characterAt_pack (symbolAt (digit v 4)) (symbolAt (digit v 3))
    (symbolAt (digit v 2)) (symbolAt (digit v 1)) (symbolAt (digit v 0))
  match p, hp with
  | 0, _ => exact h0
  | 1, _ => exact h1
  | 2, _ => exact h2
  | 3, _ => exact h3
  | 4, _ => exact h4

/-- A symbol needs no JSON escape, and CHK says that it is valid (40_alphabet_lookup.md R82, R84). -/
theorem symbol_is_jsonSafe_and_valid (d : Digit) (t : State) :
    symbolAt d ∈ alphabet ∧ needsJsonEscape (symbolAt d) = false ∧
      ∃ u q, exec (.chk (symbolAt d)) t = .next u ∧ u.result = some q ∧ q.getLsbD 7 = true := by
  have hmem := symbolAt_mem_alphabet d
  have hexec := exec_chk (symbolAt d) t
  exact ⟨hmem, needsJsonEscape_of_mem_alphabet hmem, _, _, hexec, rfl, (chk_bit7_iff hexec rfl).mpr hmem⟩

/-- A SYM that succeeds puts out the symbol of a digit (40_alphabet_lookup.md R81). -/
theorem symbol_of_sym {i : SymbolIndex} {s t : State} {r : ResultWord} (h : exec (.sym i) s = .next t)
    (hr : t.result = some r) (hok : statusErr t.status = false) : ∃ d, r.extractLsb' 0 8 = symbolAt d := by
  obtain hindex | hrange := Nat.lt_or_ge i.toNat 85
  · obtain rfl := Host.Outcome.next.inj ((exec_sym_of_toNat_eq (d := ⟨i.toNat, hindex⟩) rfl s).symm.trans h)
    obtain rfl := Option.some.inj hr
    exact ⟨⟨i.toNat, hindex⟩, BitVec.extractLsb'_append_eq_right⟩
  · obtain rfl := Host.Outcome.next.inj ((exec_sym_of_gt hrange s).symm.trans h)
    exact absurd hok (show ¬ statusErr 0x0F#8 = false by decide)

/-- Settles O19: every character put out is the symbol of a digit (`characterAt_encodedBlock`, `symbol_of_sym`). -/
theorem outputCharactersAreValidAndJsonSafe : Obligations.OutputCharactersAreValidAndJsonSafe := by
  unfold Obligations.OutputCharactersAreValidAndJsonSafe
  refine ⟨fun v s t r p ht hr hp => ?enc4, fun i s t r ht hr hok => ?sym⟩
  case enc4 =>
    obtain rfl := Host.Outcome.next.inj ht
    obtain rfl := Option.some.inj hr
    have hsymbol := characterAt_encodedBlock v hp
    rw [characterAt] at hsymbol
    rw [hsymbol]
    exact symbol_is_jsonSafe_and_valid _ _
  case sym =>
    obtain ⟨d, hsymbol⟩ := symbol_of_sym ht hr hok
    rw [hsymbol]
    exact symbol_is_jsonSafe_and_valid d t

end Sys2Proof.Machine
end

section
/-! PROOF. The block decoder (42_block_decoder.md): its command word (R100), what it answers on an invalid character
(R101), on a value that fits (R102, R105) and on one that overflows (R103, R104), and its two relations to ENC4: DEC5
undoes it (R107), and under REJECT accepts its image and nothing else (R108). -/

namespace Sys2Proof.Machine

/-! ### DEC5 after ENC4 -/

/-- A success is a response with STATUS 0x01. -/
theorem State.complete_eq_respond (s : State) (v : ResultWord) : s.complete v = s.respond v 0x01#8 := by
  rw [complete, statusByte_success]
  rfl

/-- DEC5 of the RESULT of ENC4 answers V with zeros above it, under either policy (R107). -/
theorem exec_dec5_of_encodedBlock {v : BlockValue} {r : ResultWord} (h : encodedBlock v = r) (s : State) :
    exec (decode (0b01#2 ++ r)) s = .next (s.respond (v.setWidth 40) 0x01#8) := by
  rw [← h, exec_dec5_encodedBlock, State.complete_eq_respond]

/-- Settles O25. -/
theorem dec5OfEnc4GivesTheBlockBack : Obligations.Dec5OfEnc4GivesTheBlockBack := by
  unfold Obligations.Dec5OfEnc4GivesTheBlockBack
  intro v s t u r ht hr
  obtain rfl := Host.Outcome.next.inj ht
  exact exec_dec5_of_encodedBlock (Option.some.inj hr) u

/-! ### The value of a group -/

/-- The value of a group is at most that of five digits 84 (R102). -/
theorem groupValue_le (d0 d1 d2 d3 d4 : Digit) : groupValue d0 d1 d2 d3 d4 ≤ 85 ^ 5 - 1 := by
  unfold groupValue
  omega

/-- The leading digit bounds the value from both sides. -/
theorem groupValue_bounds (d0 d1 d2 d3 d4 : Digit) :
    d0.val * 85 ^ 4 ≤ groupValue d0 d1 d2 d3 d4 ∧ groupValue d0 d1 d2 d3 d4 < (d0.val + 1) * 85 ^ 4 := by
  unfold groupValue
  omega

/-- V with zeros above it is a zero byte and the four bytes of V (R105). -/
theorem setWidth_eq_zero_append_bytes (v : BlockValue) :
    (v.setWidth 40 : ResultWord) =
      0#8 ++ v.extractLsb' 24 8 ++ v.extractLsb' 16 8 ++ v.extractLsb' 8 8 ++ v.extractLsb' 0 8 := by
  have := v.isLt
  apply BitVec.eq_of_toNat_eq
  refine Eq.trans ?_ (pack_toNat 0#8 _ _ _ _).symm
  simp only [extract_toNat, BitVec.toNat_setWidth, BitVec.toNat_ofNat]
  omega

/-! ### What DEC5 answers on the symbols of five digits -/

theorem exec_dec5_of_overflow_reject {d0 d1 d2 d3 d4 : Digit} {s : State}
    (hpolicy : s.config.overflowPolicy = .reject) (hover : 0xFFFFFFFF < groupValue d0 d1 d2 d3 d4) :
    exec (.dec5 (symbolAt d0) (symbolAt d1) (symbolAt d2) (symbolAt d3) (symbolAt d4)) s =
      .next (s.respond 0#40 0x0B#8) := by
  rw [exec, execDec5_symbols, horner_eq_groupValue, State.finishDec5_of_reject hover hpolicy]
  rfl

/-- `exec_dec5_of_fits_or_wrap` with STATUS as a number. -/
theorem exec_dec5_responds_value {d0 d1 d2 d3 d4 : Digit} {s : State} {v : BlockValue}
    (hv : v.toNat = groupValue d0 d1 d2 d3 d4 % 2 ^ 32)
    (h : groupValue d0 d1 d2 d3 d4 ≤ 0xFFFFFFFF ∨ s.config.overflowPolicy = .wrap) :
    exec (.dec5 (symbolAt d0) (symbolAt d1) (symbolAt d2) (symbolAt d3) (symbolAt d4)) s =
      .next (s.respond (v.setWidth 40) 0x01#8) := by
  rw [exec_dec5_of_fits_or_wrap hv h, State.complete_eq_respond]

/-- Settles O20: the digits of the characters are the given ones (`dmap_eq_some_iff`), and RESULT holds their value
(`exec_dec5_responds_value`) in four bytes (`setWidth_eq_zero_append_bytes`). -/
theorem dec5DecodesGroupsThatFit : Obligations.Dec5DecodesGroupsThatFit := by
  unfold Obligations.Dec5DecodesGroupsThatFit
  refine ⟨fun d0 d1 d2 d3 d4 => ⟨horner_eq_groupValue d0 d1 d2 d3 d4, groupValue_le d0 d1 d2 d3 d4⟩, by norm_num,
    by norm_num, fun c0 c1 c2 c3 c4 d0 d1 d2 d3 d4 s h0 h1 h2 h3 h4 hfits => ?decoded⟩
  case decoded =>
    obtain rfl := symbolAt_of_dmap (dmap_eq_some_iff.mpr h0)
    obtain rfl := symbolAt_of_dmap (dmap_eq_some_iff.mpr h1)
    obtain rfl := symbolAt_of_dmap (dmap_eq_some_iff.mpr h2)
    obtain rfl := symbolAt_of_dmap (dmap_eq_some_iff.mpr h3)
    obtain rfl := symbolAt_of_dmap (dmap_eq_some_iff.mpr h4)
    have hv := BitVec.toNat_ofNat (groupValue d0 d1 d2 d3 d4) 32
    refine ⟨BitVec.ofNat 32 (groupValue d0 d1 d2 d3 d4), hv.trans (Nat.mod_eq_of_lt (by omega)), ?_⟩
    rw [exec_dec5_responds_value hv (.inl hfits), setWidth_eq_zero_append_bytes]
    rfl

/-- Settles O22. -/
theorem dec5RejectsOverflowUnderReject : Obligations.Dec5RejectsOverflowUnderReject := by
  unfold Obligations.Dec5RejectsOverflowUnderReject
  intro d0 d1 d2 d3 d4 s hpolicy hover
  exact exec_dec5_of_overflow_reject hpolicy hover

/-- Settles O23: under WRAP, RESULT holds the value modulo 2^32 (`exec_dec5_responds_value`), which is 0 for both
groups of the pair, of values 2^32 and 0. -/
theorem dec5WrapsOverflowUnderWrap : Obligations.Dec5WrapsOverflowUnderWrap := by
  unfold Obligations.Dec5WrapsOverflowUnderWrap
  refine ⟨fun d0 d1 d2 d3 d4 s hpolicy _ => ?wraps, fun s hpolicy => ⟨?firstOverflow, ?zero⟩⟩
  case wraps =>
    have hv := BitVec.toNat_ofNat (groupValue d0 d1 d2 d3 d4) 32
    rw [exec_dec5_responds_value hv (.inr hpolicy), ← hv, BitVec.ofNat_toNat]
    rfl
  case firstOverflow =>
    exact exec_dec5_responds_value (d0 := 82) (d1 := 23) (d2 := 54) (d3 := 12) (d4 := 1) (v := 0) (by decide)
      (.inr hpolicy)
  case zero =>
    exact exec_dec5_responds_value (d0 := 0) (d1 := 0) (d2 := 0) (d3 := 0) (d4 := 0) (v := 0) (by decide)
      (.inr hpolicy)

/-! ### The leftmost invalid character -/

/-- A character outside the alphabet behind symbols alone ends the reading of digits at its position (R101). -/
theorem readDigits_eq_error {cs : List Character} {p : Nat} {c : Character} (hc : cs[p]? = some c)
    (hn : c ∉ alphabet) (hleft : ∀ a ∈ cs.take p, a ∈ alphabet) (pos : Nat) :
    readDigits pos cs = .error (pos + p) := by
  induction cs generalizing p pos with
  | nil => simp at hc
  | cons a cs ih =>
    cases p with
    | zero =>
      obtain rfl : a = c := by simpa using hc
      simp [readDigits, (dmap_eq_none_iff_not_mem a).mpr hn]
    | succ p =>
      rw [List.take_succ_cons, List.forall_mem_cons] at hleft
      obtain ⟨ha, hleft⟩ := hleft
      obtain ⟨d, rfl⟩ := (mem_alphabet_iff a).mp ha
      have hrest := ih (by simpa using hc) hleft (pos + 1)
      simp [readDigits, dmap_symbolAt, hrest, Nat.add_comm, Nat.add_left_comm]

/-- STATUS of INVALID_CHAR at a position, as a number (10_state.md R25). -/
theorem statusByte_invalidChar :
    ∀ p < 5, statusByte true .invalidChar (BitVec.ofNat 3 p) = BitVec.ofNat 8 (0x07 + 16 * p) := by decide

/-- DEC5 names the leftmost character outside the alphabet (R101). -/
theorem exec_dec5_of_leftmost {c0 c1 c2 c3 c4 c : Character} {p : Nat} (hc : [c0, c1, c2, c3, c4][p]? = some c)
    (hn : c ∉ alphabet) (hleft : ∀ a ∈ [c0, c1, c2, c3, c4].take p, a ∈ alphabet) (s : State) :
    exec (.dec5 c0 c1 c2 c3 c4) s = .next (s.respond 0#40 (BitVec.ofNat 8 (0x07 + 16 * p))) := by
  have hp : p < 5 := (List.getElem?_eq_some_iff.mp hc).1
  rw [exec, execDec5, readDigits_eq_error hc hn hleft, ← statusByte_invalidChar p hp, Nat.zero_add]
  rfl

/-- Settles O21 (`exec_dec5_of_leftmost`); codes from 0x80 up are not printable (R32). -/
theorem dec5ReportsTheLeftmostInvalidCharacter : Obligations.Dec5ReportsTheLeftmostInvalidCharacter := by
  unfold Obligations.Dec5ReportsTheLeftmostInvalidCharacter
  refine ⟨fun c0 c1 c2 c3 c4 c s p hc hn hleft => exec_dec5_of_leftmost hc hn (fun a ha => ?symbol) s,
    fun c hwide => ?wide⟩
  case symbol =>
    obtain ⟨q, hq, rfl⟩ := List.mem_take_iff_getElem.mp ha
    obtain ⟨b, hb, hmem⟩ := hleft q (by omega)
    rwa [(List.getElem?_eq_some_iff.mp hb).2]
  case wide => exact (dmap_eq_none_iff_not_mem c).mp (dmap_eq_none_of_not_printable (.inr (.inr hwide)))

/-! ### The command word and the corner cases -/

theorem decode_of_dec5_row {cmd : CommandWord} (h : cmd &&& 0x30000000000#42 = 0x10000000000#42) :
    decode cmd = .dec5 (cmd.extractLsb' 32 8) (cmd.extractLsb' 24 8) (cmd.extractLsb' 16 8) (cmd.extractLsb' 8 8)
      (cmd.extractLsb' 0 8) := by
  obtain ⟨din, rfl⟩ := eq_code_append_of_row (o := .dec5) h
  have hcharacter (p : Nat) :
      characterAt din p = (Operation.dec5.code ++ din : CommandWord).extractLsb' (32 - 8 * p) 8 :=
    (BitVec.extractLsb'_append_eq_of_add_le (by omega)).symm
  refine (decode_dec5_word din).trans ?_
  simp only [hcharacter]

/-- Settles O24: the words that succeed under either policy are RESULTs of ENC4 (`exec_dec5_of_encodedBlock`). -/
theorem dec5MeetsItsCornerCases : Obligations.Dec5MeetsItsCornerCases := by
  unfold Obligations.Dec5MeetsItsCornerCases
  have hfirstOverflow : decode 0x1256E536331#42 =
      .dec5 (symbolAt 82) (symbolAt 23) (symbolAt 54) (symbolAt 12) (symbolAt 1) := by decide
  have hlargest : decode 0x12323232323#42 =
      .dec5 (symbolAt 84) (symbolAt 84) (symbolAt 84) (symbolAt 84) (symbolAt 84) := by decide
  have hquote3 : decode 0x148656C226F#42 = .dec5 0x48#8 0x65#8 0x6C#8 0x22#8 0x6F#8 := by decide
  have hwide1 : decode 0x148806C226F#42 = .dec5 0x48#8 0x80#8 0x6C#8 0x22#8 0x6F#8 := by decide
  have hquote2 : decode 0x12323222323#42 = .dec5 0x23#8 0x23#8 0x22#8 0x23#8 0x23#8 := by decide
  rw [hfirstOverflow, hlargest, hquote3, hwide1, hquote2]
  refine ⟨fun _ => decode_of_dec5_row, fun s => ⟨?zero, ?allOnes, ?quoteAt3, ?wideAt1, ?quoteAt2, ?hello⟩,
    fun s hpolicy => ⟨exec_dec5_of_overflow_reject hpolicy (by decide),
      exec_dec5_of_overflow_reject hpolicy (by decide)⟩,
    fun s hpolicy => ⟨exec_dec5_responds_value (v := 0) (by decide) (.inr hpolicy),
      exec_dec5_responds_value (v := 0x08780EC4) (by decide) (.inr hpolicy)⟩⟩
  case zero => exact exec_dec5_of_encodedBlock (v := 0) (r := 0x3030303030#40) (by decide) s
  case allOnes => exact exec_dec5_of_encodedBlock (v := 0xFFFFFFFF) (r := 0x256E536330#40) (by decide) s
  case hello => exact exec_dec5_of_encodedBlock (v := 0x864FD26F) (r := 0x48656C6C6F#40) (by decide) s
  case quoteAt3 => exact exec_dec5_of_leftmost (p := 3) rfl (by decide) (by decide) s
  case wideAt1 => exact exec_dec5_of_leftmost (p := 1) rfl (by decide) (by decide) s
  case quoteAt2 => exact exec_dec5_of_leftmost (p := 2) rfl (by decide) (by decide) s

/-! ### What DEC5 accepts under REJECT -/

/-- There are as many accepted groups as blocks, because `encodedBlock` is injective onto them. -/
theorem card_decodesWithoutError {s : State} (hpolicy : s.config.overflowPolicy = .reject) :
    Nat.card { g : Payload // DecodesWithoutError s g } = 2 ^ 32 := by
  simp only [decodesWithoutError_iff hpolicy]
  calc Nat.card { g : Payload // ∃ v, encodedBlock v = g }
      = Nat.card BlockValue := Nat.card_range_of_injective encodedBlock_injective
    _ = Nat.card (Fin (2 ^ 32)) := Nat.card_congr BitVec.equivFin.toEquiv
    _ = 2 ^ 32 := Nat.card_fin _

/-- ENC4 of what DEC5 answers on an accepted group gives the group back. -/
theorem enc4_of_dec5_of_reject {s t : State} {g : Payload} (hpolicy : s.config.overflowPolicy = .reject)
    (ht : exec (decode (0b01#2 ++ g)) s = .next t) (hok : statusErr t.status = false) :
    ∃ v u, t.result = some (v.setWidth 40) ∧ exec (.enc4 v) t = .next u ∧ u.result = some g := by
  obtain ⟨v, rfl⟩ := (decodesWithoutError_iff hpolicy g).mp ⟨t, ht, hok⟩
  obtain rfl := Host.Outcome.next.inj ((exec_dec5_encodedBlock v s).symm.trans ht)
  exact ⟨v, _, rfl, rfl, rfl⟩

theorem characterAt_mem_alphabet {s : State} {g : Payload} (hpolicy : s.config.overflowPolicy = .reject)
    (hg : DecodesWithoutError s g) {p : Nat} (hp : p < 5) : characterAt g p ∈ alphabet := by
  obtain ⟨v, rfl⟩ := (decodesWithoutError_iff hpolicy g).mp hg
  rw [characterAt_encodedBlock v hp]
  exact symbolAt_mem_alphabet _

/-- Under REJECT, a group of symbols is accepted exactly when its value fits 32 bits. -/
theorem decodesWithoutError_symbols_iff {s : State} (hpolicy : s.config.overflowPolicy = .reject)
    (d0 d1 d2 d3 d4 : Digit) :
    DecodesWithoutError s (packCharacters (symbolAt d0) (symbolAt d1) (symbolAt d2) (symbolAt d3) (symbolAt d4)) ↔
      groupValue d0 d1 d2 d3 d4 ≤ 0xFFFFFFFF := by
  rw [DecodesWithoutError, decode_dec5_packCharacters]
  constructor
  · rintro ⟨t, ht, hok⟩
    by_contra hover
    obtain rfl := Host.Outcome.next.inj ((exec_dec5_of_overflow_reject hpolicy (by omega)).symm.trans ht)
    exact absurd hok (show ¬ statusErr 0x0B#8 = false by decide)
  · intro hfits
    exact ⟨_, exec_dec5_responds_value (BitVec.toNat_ofNat _ 32) (.inl hfits),
      show statusErr 0x01#8 = false by decide⟩

/-- Settles O26: the accepted groups are the values of the injective `encodedBlock` (`card_decodesWithoutError`,
`enc4_of_dec5_of_reject`), and on symbols the value decides (`decodesWithoutError_symbols_iff`), which the leading digit
bounds (`groupValue_bounds`). -/
theorem rejectAcceptsExactlyTheEncodedGroups : Obligations.RejectAcceptsExactlyTheEncodedGroups := by
  unfold Obligations.RejectAcceptsExactlyTheEncodedGroups
  intro s hpolicy
  obtain ⟨-, himage⟩ := enc4IsInjectiveOntoTheAcceptedGroups
  refine ⟨card_decodesWithoutError hpolicy, fun g => himage s g hpolicy, fun _ _ => enc4_of_dec5_of_reject hpolicy,
    fun _ hg _ hp => characterAt_mem_alphabet hpolicy hg hp, fun d0 d1 d2 d3 d4 => ?symbols, ?firstOverflow⟩
  case symbols =>
    have haccepts := decodesWithoutError_symbols_iff hpolicy d0 d1 d2 d3 d4
    obtain ⟨hlow, hhigh⟩ := groupValue_bounds d0 d1 d2 d3 d4
    refine ⟨haccepts, fun hd => haccepts.mpr ?_, fun _ => haccepts.trans ?_, fun hd => haccepts.not.mpr ?_⟩ <;> omega
  case firstOverflow => exact ⟨82, 23, 54, 12, 1, by decide, rfl, by decide⟩

end Sys2Proof.Machine
end

section
/-! PROOF. The host procedures (45_host_procedures.md). A buffer is cut into blocks and a string into payloads, so that
ENCODE (R121) and DECODE (R122, R123) are each one command per element of a list; from these follow the round trip
(R129), the UUID procedures (R125, R126) and how every procedure ends (R124). -/

namespace Sys2Proof.Machine

/-! ### Lists made of groups of one length -/

section Groups

variable {α β : Type} {f : α → List β} {n : Nat}

theorem length_flatMap_of_length (hf : ∀ a, (f a).length = n) (as : List α) :
    (as.flatMap f).length = n * as.length := by
  simp [List.length_flatMap, hf, Nat.mul_comm]

/-- Element `k` of group `g` stands at `n * g + k`. -/
theorem getElem?_flatMap_of_length (hf : ∀ a, (f a).length = n) {as : List α} {g : Nat} {a : α}
    (ha : as[g]? = some a) {k : Nat} (hk : k < n) : (as.flatMap f)[n * g + k]? = (f a)[k]? := by
  induction as generalizing g with
  | nil => simp at ha
  | cons b as ih =>
    rw [List.flatMap_cons]
    cases g with
    | zero =>
      obtain rfl : b = a := by simpa using ha
      rw [Nat.mul_zero, Nat.zero_add, List.getElem?_append_left (by rwa [hf])]
    | succ g =>
      have hindex : n * (g + 1) + k - n = n * g + k := by rw [Nat.mul_succ]; omega
      rw [List.getElem?_append_right (by rw [hf, Nat.mul_succ]; omega), hf, hindex]
      exact ih (by simpa using ha)

/-- A list of `n * k` elements is made of `k` groups, where every `n` elements make one. -/
theorem exists_flatMap_eq {P : β → Prop} (hf : ∀ l : List β, l.length = n → (∀ x ∈ l, P x) → ∃ a, f a = l) (k : Nat) :
    ∀ l : List β, l.length = n * k → (∀ x ∈ l, P x) → ∃ as : List α, as.flatMap f = l := by
  induction k with
  | zero => exact fun l hl _ => ⟨[], (List.eq_nil_of_length_eq_zero hl).symm⟩
  | succ k ih =>
    intro l hl hP
    rw [Nat.mul_succ] at hl
    obtain ⟨a, ha⟩ := hf (l.take n) (by rw [List.length_take]; omega) fun x hx => hP x (List.mem_of_mem_take hx)
    obtain ⟨as, has⟩ := ih (l.drop n) (by rw [List.length_drop]; omega) fun x hx => hP x (List.mem_of_mem_drop hx)
    exact ⟨a :: as, by rw [List.flatMap_cons, ha, has, List.take_append_drop]⟩

end Groups

/-! ### The response to a command -/

/-- The response to a command on every block of a configuration (00_scope.md R14): what the command leaves in the
registers of the block after reset. A command always answers a next state (`exec_eq_respond`). -/
def responseTo (c : Config) (cmd : CommandWord) : Response :=
  match exec (decode cmd) (State.resetWith c) with
  | .next t => { result := t.result.getD 0, status := t.status }
  | _ => { result := 0, status := 0 }

theorem responseTo_of_exec {s : State} {cmd : CommandWord} {r : ResultWord} {b : StatusByte}
    (h : exec (decode cmd) s = .next (s.respond r b)) : responseTo s.config cmd = { result := r, status := b } := by
  obtain ⟨r', b', hs, hreset⟩ := exec_same_response (s := s) (s' := State.resetWith s.config) rfl (decode cmd)
  have hsame := Host.Outcome.next.inj (hs.symm.trans h)
  obtain rfl : r' = r := Option.some.inj (congrArg State.result hsame)
  obtain rfl : b' = b := congrArg State.status hsame
  rw [responseTo, hreset]
  rfl

theorem exec_eq_respond (s : State) (cmd : CommandWord) :
    exec (decode cmd) s = .next (s.respond (responseTo s.config cmd).result (responseTo s.config cmd).status) := by
  obtain ⟨r, hexec, -⟩ := exec_responds (decode cmd) s
  rw [responseTo_of_exec hexec, hexec]

theorem hardwiredStatus_responseTo (c : Config) (cmd : CommandWord) :
    hardwiredStatus (responseTo c cmd).status = (responseTo c cmd).status := by
  obtain ⟨r, hexec, hread⟩ := exec_responds (decode cmd) (State.resetWith c)
  have hresponse : responseTo c cmd = r := responseTo_of_exec hexec
  rwa [hresponse]

theorem isResponse_iff_eq_responseTo {c : Config} {cmd : CommandWord} {r : Response} :
    IsResponse c cmd r ↔ r = responseTo c cmd := by
  refine (isResponse_iff (s := State.resetWith c)).trans ⟨?_, ?_⟩
  · rintro ⟨t, ht, hresult, hstatus⟩
    obtain rfl := Host.Outcome.next.inj ((exec_eq_respond _ cmd).symm.trans ht)
    obtain ⟨result, status⟩ := r
    obtain rfl := Option.some.inj hresult
    obtain rfl := hstatus
    rfl
  · rintro rfl
    exact ⟨_, exec_eq_respond _ cmd, rfl, rfl⟩

/-- The session after one more command. -/
def Session.issuing (h : Session) (cmd : CommandWord) : Session :=
  { block := h.block.respond (responseTo h.block.config cmd).result (responseTo h.block.config cmd).status
    issued := h.issued ++ [cmd] }

@[simp] theorem Session.issuing_config (h : Session) (cmd : CommandWord) :
    (h.issuing cmd).block.config = h.block.config := rfl
@[simp] theorem Session.issuing_issued (h : Session) (cmd : CommandWord) :
    (h.issuing cmd).issued = h.issued ++ [cmd] := rfl

/-- No command stops the procedure that issues it. -/
theorem issue_eq (cmd : CommandWord) (h : Session) :
    issue cmd h = .returns (responseTo h.block.config cmd) (h.issuing cmd) := by
  have hread (s : State) : (s.respond (responseTo h.block.config cmd).result
      (responseTo h.block.config cmd).status).readStatus = (responseTo h.block.config cmd).status :=
    hardwiredStatus_responseTo _ _
  simp only [issue, step_present_issue, exec_eq_respond, State.readResult, State.respond_result, hread]
  rfl

/-! ### Blocks and their bytes, payloads and their characters -/

/-- The four bytes of a block, as DEC5 leaves them in RESULT (20_memory.md R43). -/
def blockBytes (v : BlockValue) : List Byte := resultBytes (v.setWidth 40)

theorem length_blockBytes (v : BlockValue) : (blockBytes v).length = 4 := rfl

theorem length_resultBytes (r : ResultWord) : (resultBytes r).length = 4 := rfl

theorem length_resultCharacters (w : BitVec 40) : (resultCharacters w).length = 5 := rfl

theorem blockBytes_blockOfBytes (b0 b1 b2 b3 : Byte) : blockBytes (blockOfBytes b0 b1 b2 b3) = [b0, b1, b2, b3] := by
  obtain ⟨h0, h1, h2, h3⟩ := resultByte_blockOfBytes b0 b1 b2 b3
  rw [blockBytes, resultBytes, h0, h1, h2, h3]

theorem exists_blockBytes_eq (l : List Byte) (h : l.length = 4) : ∃ v, blockBytes v = l := by
  match l, h with
  | [b0, b1, b2, b3], _ => exact ⟨_, blockBytes_blockOfBytes b0 b1 b2 b3⟩

theorem getElem?_resultCharacters (w : BitVec 40) {k : Nat} (hk : k < 5) :
    (resultCharacters w)[k]? = some (characterAt w k).toNat := by
  match k, hk with
  | 0, _ => rfl
  | 1, _ => rfl
  | 2, _ => rfl
  | 3, _ => rfl
  | 4, _ => rfl

theorem le_of_mem_resultCharacters {w : BitVec 40} {c : Nat} (h : c ∈ resultCharacters w) : c ≤ 0xFF := by
  have hwidth (p : Nat) : (characterAt w p).toNat ≤ 0xFF := Nat.le_of_lt_succ (characterAt w p).isLt
  simp only [resultCharacters, List.mem_cons, List.not_mem_nil, or_false] at h
  obtain rfl | rfl | rfl | rfl | rfl := h <;> exact hwidth _

theorem exists_resultCharacters_eq (l : HostString) (h : l.length = 5) (hnarrow : ∀ c ∈ l, c ≤ 0xFF) :
    ∃ w, resultCharacters w = l := by
  match l, h with
  | [c0, c1, c2, c3, c4], _ =>
    simp only [List.forall_mem_cons] at hnarrow
    obtain ⟨h0, h1, h2, h3, h4, -⟩ := hnarrow
    refine ⟨packCharacters (BitVec.ofNat 8 c0) (BitVec.ofNat 8 c1) (BitVec.ofNat 8 c2) (BitVec.ofNat 8 c3)
      (BitVec.ofNat 8 c4), ?_⟩
    have hcode {c : Nat} (hc : c ≤ 0xFF) : (BitVec.ofNat 8 c).toNat = c := by rw [BitVec.toNat_ofNat]; omega
    simp only [resultCharacters, characterAt_pack, hcode, h0, h1, h2, h3, h4]

/-- A narrow string of a length that is a multiple of 5 is the characters of payloads. -/
theorem exists_payloads {str : HostString} (hnarrow : ∀ c ∈ str, c ≤ 0xFF) (hlen : str.length % 5 = 0) :
    ∃ ws : List Payload, ws.flatMap resultCharacters = str :=
  exists_flatMap_eq exists_resultCharacters_eq (str.length / 5) str (by omega) hnarrow

theorem length_padded (b : List Byte) : (padded b).length = 4 * ((b.length + 3) / 4) := by
  rw [padded, List.length_append, List.length_replicate]
  omega

/-- A padded buffer is the bytes of one block per group (R121). -/
theorem exists_blocks (b : List Byte) :
    ∃ vs : List BlockValue, vs.flatMap blockBytes = padded b ∧ vs.length = (b.length + 3) / 4 := by
  obtain ⟨vs, hvs⟩ := exists_flatMap_eq (P := fun _ => True) (fun l hl _ => exists_blockBytes_eq l hl) _ (padded b)
    (length_padded b) fun _ _ => trivial
  have hlen := length_flatMap_of_length length_blockBytes vs
  rw [hvs, length_padded] at hlen
  exact ⟨vs, hvs, by omega⟩

/-! ### ENCODE -/

theorem responseTo_enc4 (c : Config) (v : BlockValue) :
    responseTo c (encode (.enc4 v)) = { result := encodedBlock v, status := 0x01#8 } :=
  responseTo_of_exec (s := State.resetWith c) (by rw [decode_encode, exec_enc4_of_encodedBlock rfl])

/-- The command that ENCODE issues for the bytes of a block. -/
theorem enc4Command_blockBytes (v : BlockValue) :
    enc4Command (resultByte (v.setWidth 40) 0) (resultByte (v.setWidth 40) 1) (resultByte (v.setWidth 40) 2)
      (resultByte (v.setWidth 40) 3) = encode (.enc4 v) := by
  rw [enc4Command, blockOfBytes_resultByte]

theorem encodeGroups_blockBytes_append (v : BlockValue) (rest : List Byte) (h : Session) :
    encodeGroups (blockBytes v ++ rest) h =
      (encodeGroups rest (h.issuing (encode (.enc4 v)))).bind fun str h' =>
        .returns (resultCharacters (encodedBlock v) ++ str) h' := by
  rw [blockBytes, resultBytes, List.cons_append, List.cons_append, List.cons_append, List.cons_append,
    List.nil_append, encodeGroups, enc4Command_blockBytes, issue_eq, HostResult.returns_bind, responseTo_enc4]

/-- One ENC4 per block, in order. -/
theorem encodeGroups_blocks (vs : List BlockValue) (h : Session) :
    ∃ h', encodeGroups (vs.flatMap blockBytes) h = .returns ((vs.map encodedBlock).flatMap resultCharacters) h' ∧
      h'.issued = h.issued ++ vs.map fun v => encode (.enc4 v) := by
  induction vs generalizing h with
  | nil => exact ⟨h, rfl, (List.append_nil _).symm⟩
  | cons v vs ih =>
    obtain ⟨h', hrest, hissued⟩ := ih (h.issuing (encode (.enc4 v)))
    refine ⟨h', ?_, ?_⟩
    · rw [List.flatMap_cons, encodeGroups_blockBytes_append, hrest]
      rfl
    · rw [hissued, Session.issuing_issued, List.append_assoc]
      rfl

/-- ENCODE of the empty buffer is its loop too, over no group. -/
theorem encodeBuffer_eq (b : List Byte) (h : Session) : encodeBuffer b h = encodeGroups (padded b) h := by
  unfold encodeBuffer
  split
  · next hempty =>
    obtain rfl := List.eq_nil_of_length_eq_zero hempty
    rfl
  · rfl

/-- What ENCODE returns and issues, by the blocks of the padded buffer (R121). -/
theorem encodeBuffer_blocks (b : List Byte) (h : Session) :
    ∃ (vs : List BlockValue) (h' : Session), vs.flatMap blockBytes = padded b ∧ vs.length = (b.length + 3) / 4 ∧
      encodeBuffer b h = .returns ((vs.map encodedBlock).flatMap resultCharacters) h' ∧
      h'.issued = h.issued ++ vs.map fun v => encode (.enc4 v) := by
  obtain ⟨vs, hbytes, hlen⟩ := exists_blocks b
  obtain ⟨h', hgroups, hissued⟩ := encodeGroups_blocks vs h
  exact ⟨vs, h', hbytes, hlen, by rw [encodeBuffer_eq, ← hbytes, hgroups], hissued⟩

theorem length_encodedCharacters (vs : List BlockValue) :
    ((vs.map encodedBlock).flatMap resultCharacters).length = vs.length * 5 := by
  rw [length_flatMap_of_length length_resultCharacters, List.length_map, Nat.mul_comm]

/-- The ENC4 word of a block, its fields in a row (30_encoding.md R63). -/
theorem encode_enc4_eq_fields (v : BlockValue) :
    encode (.enc4 v) = 0b00#2 ++ 0x00#8 ++ resultByte (v.setWidth 40) 0 ++ resultByte (v.setWidth 40) 1 ++
      resultByte (v.setWidth 40) 2 ++ resultByte (v.setWidth 40) 3 := by
  rw [append_bytes_eq, blockOfBytes_resultByte, encode_enc4]

/-- Settles O45: the padded buffer is the bytes of blocks, and ENCODE answers one group of characters for each
(`encodeBuffer_blocks`); group `g` of any of the lists belongs to block `g`. -/
theorem encodeBufferIssuesOneEnc4PerGroup : Obligations.EncodeBufferIssuesOneEnc4PerGroup := by
  unfold Obligations.EncodeBufferIssuesOneEnc4PerGroup
  intro b h
  obtain ⟨vs, h', hbytes, hlen, hreturns, hissued⟩ := encodeBuffer_blocks b h
  refine ⟨_, h', _, hreturns, hissued, by rw [List.length_map, hlen], by rw [length_encodedCharacters, hlen],
    fun g hg => ?group⟩
  case group =>
    have hv : vs[g]? = some vs[g] := List.getElem?_eq_getElem (hlen ▸ hg)
    have hbyte {k : Nat} (hk : k < 4) : (padded b)[4 * g + k]? = (blockBytes vs[g])[k]? :=
      hbytes ▸ getElem?_flatMap_of_length length_blockBytes hv hk
    have hcharacter {k : Nat} (hk : k < 5) := getElem?_flatMap_of_length length_resultCharacters
      (as := vs.map encodedBlock) (g := g) (a := encodedBlock vs[g]) (by rw [List.getElem?_map, hv]; rfl) hk
    have hresponse := isResponse_iff_eq_responseTo.mpr (responseTo_enc4 h.block.config vs[g]).symm
    rw [encode_enc4_eq_fields] at hresponse
    refine ⟨_, _, _, _, encodedBlock vs[g], hbyte (k := 0) (by decide), hbyte (k := 1) (by decide),
      hbyte (k := 2) (by decide), hbyte (k := 3) (by decide), ?_, hresponse, hcharacter (k := 0) (by decide),
      hcharacter (k := 1) (by decide), hcharacter (k := 2) (by decide), hcharacter (k := 3) (by decide),
      hcharacter (k := 4) (by decide)⟩
    rw [List.getElem?_map, hv, ← encode_enc4_eq_fields]
    rfl

/-! ### DECODE -/

theorem HostResult.bind_returns {α : Type} (x : HostResult α) : (x.bind fun a h => .returns a h) = x := by
  cases x <;> rfl

theorem HostResult.bind_assoc {α β γ : Type} (x : HostResult α) (f : α → Session → HostResult β)
    (g : β → Session → HostResult γ) : (x.bind f).bind g = x.bind fun a h => (f a h).bind g := by
  cases x <;> rfl

/-- The command DEC5 of the characters of a payload (30_encoding.md R64). -/
theorem dec5Command_characters (w : Payload) :
    dec5Command (characterAt w 0).toNat (characterAt w 1).toNat (characterAt w 2).toNat (characterAt w 3).toNat
      (characterAt w 4).toNat = 0b01#2 ++ w := by
  simp only [dec5Command, BitVec.ofNat_toNat, BitVec.setWidth_eq]
  exact congrArg (0b01#2 ++ ·) (pack_characterAt w)

/-- The response to DEC5 of a payload. -/
def groupResponse (c : Config) (w : Payload) : Response := responseTo c (0b01#2 ++ w)

theorem isGroupResponse_iff {c : Config} {ws : List Payload} {g : Nat} {w : Payload} (hw : ws[g]? = some w)
    {r : Response} : IsGroupResponse c (ws.flatMap resultCharacters) g r ↔ r = groupResponse c w := by
  have hcharacter {k : Nat} (hk : k < 5) :
      (ws.flatMap resultCharacters)[5 * g + k]? = some (characterAt w k).toNat :=
    (getElem?_flatMap_of_length length_resultCharacters hw hk).trans (getElem?_resultCharacters w hk)
  have hword : 0b01#2 ++ characterAt w 0 ++ characterAt w 1 ++ characterAt w 2 ++ characterAt w 3 ++
      characterAt w 4 = 0b01#2 ++ w := by rw [append_characters_eq, pack_characterAt]
  unfold groupResponse
  rw [← isResponse_iff_eq_responseTo, ← hword]
  constructor
  · rintro ⟨c0, c1, c2, c3, c4, h0, h1, h2, h3, h4, hresponse⟩
    have hsame {k : Nat} (hk : k < 5) {d : Character}
        (hd : (ws.flatMap resultCharacters)[5 * g + k]? = some d.toNat) : d = characterAt w k :=
      BitVec.eq_of_toNat_eq (Option.some.inj (hd.symm.trans (hcharacter hk)))
    obtain rfl := hsame (k := 0) (by decide) h0
    obtain rfl := hsame (k := 1) (by decide) h1
    obtain rfl := hsame (k := 2) (by decide) h2
    obtain rfl := hsame (k := 3) (by decide) h3
    obtain rfl := hsame (k := 4) (by decide) h4
    exact hresponse
  · intro hresponse
    exact ⟨_, _, _, _, _, hcharacter (k := 0) (by decide), hcharacter (k := 1) (by decide),
      hcharacter (k := 2) (by decide), hcharacter (k := 3) (by decide), hcharacter (k := 4) (by decide), hresponse⟩

theorem decodeGroups_nil (whole : HostString) (h : Session) : decodeGroups whole [] h = .returns [] h := rfl

theorem decodeGroups_characters_append (whole : HostString) (w : Payload) (rest : HostString) (h : Session) :
    decodeGroups whole (resultCharacters w ++ rest) h =
      if statusErr (groupResponse h.block.config w).status then failWith .blockError whole (h.issuing (0b01#2 ++ w))
      else (decodeGroups whole rest (h.issuing (0b01#2 ++ w))).bind fun out h' =>
        .returns (resultBytes (groupResponse h.block.config w).result ++ out) h' := by
  rw [resultCharacters, List.cons_append, List.cons_append, List.cons_append, List.cons_append, List.cons_append,
    List.nil_append, decodeGroups, dec5Command_characters, issue_eq, HostResult.returns_bind]
  rfl

/-- Groups without an error are decoded in order, and what follows them is decoded after them (R122). -/
theorem decodeGroups_of_ok (whole : HostString) {ws : List Payload} {h : Session}
    (hok : ∀ w ∈ ws, statusErr (groupResponse h.block.config w).status = false) (rest : HostString) :
    ∃ h' : Session, h'.block.config = h.block.config ∧ h'.issued.length = h.issued.length + ws.length ∧
      decodeGroups whole (ws.flatMap resultCharacters ++ rest) h =
        (decodeGroups whole rest h').bind fun out h'' =>
          .returns (ws.flatMap (fun w => resultBytes (groupResponse h.block.config w).result) ++ out) h'' := by
  induction ws generalizing h with
  | nil => exact ⟨h, rfl, rfl, (HostResult.bind_returns _).symm⟩
  | cons w ws ih =>
    rw [List.forall_mem_cons] at hok
    obtain ⟨hw, hws⟩ := hok
    obtain ⟨h', hconfig, hissued, hrest⟩ := ih (h := h.issuing (0b01#2 ++ w)) hws
    refine ⟨h', hconfig, ?_, ?_⟩
    · rw [hissued, Session.issuing_issued, List.length_append, List.length_singleton, List.length_cons]
      omega
    · rw [List.flatMap_cons, List.append_assoc, decodeGroups_characters_append, hw, hrest, if_neg Bool.false_ne_true,
        HostResult.bind_assoc]
      simp only [HostResult.returns_bind, List.flatMap_cons, List.append_assoc, Session.issuing_config]

/-- DECODE of a narrow string of whole groups is the loop (R122). -/
theorem decodeString_of_narrow {str : HostString} (hnarrow : ∀ c ∈ str, c ≤ 0xFF) (h : Session) :
    decodeString str h =
      if str.length % 5 ≠ 0 then failWith .misaligned str h else decodeGroups str str h := by
  have hwide : str.any (fun c => decide (c > 0xFF)) = false := by simpa using hnarrow
  rw [decodeString, hwide, if_neg Bool.false_ne_true]

theorem decodeString_of_wide {str : HostString} (hwide : ∃ c ∈ str, 0xFF < c) (h : Session) :
    decodeString str h = failWith .wideCharacter str h := by
  rw [decodeString, if_pos (by simpa using hwide)]

theorem narrow_or_wide (str : HostString) : (∀ c ∈ str, c ≤ 0xFF) ∨ ∃ c ∈ str, 0xFF < c := by
  by_contra! hneither
  obtain ⟨⟨c, hc, hwide⟩, hnarrow⟩ := hneither
  exact absurd (hnarrow c hc) (by omega)

/-- A string of payloads passes both checks. -/
theorem decodeString_payloads (ws : List Payload) (h : Session) :
    decodeString (ws.flatMap resultCharacters) h =
      decodeGroups (ws.flatMap resultCharacters) (ws.flatMap resultCharacters) h := by
  have hlen := length_flatMap_of_length length_resultCharacters ws
  rw [decodeString_of_narrow, if_neg (by omega)]
  intro c hc
  obtain ⟨w, -, hw⟩ := List.mem_flatMap.mp hc
  exact le_of_mem_resultCharacters hw

/-- Where no group has an error, DECODE returns the bytes of all responses. -/
theorem decodeString_of_ok {ws : List Payload} {h : Session}
    (hok : ∀ w ∈ ws, statusErr (groupResponse h.block.config w).status = false) :
    ∃ h' : Session, h'.issued.length = h.issued.length + ws.length ∧
      decodeString (ws.flatMap resultCharacters) h =
        .returns (ws.flatMap fun w => resultBytes (groupResponse h.block.config w).result) h' := by
  obtain ⟨h', -, hissued, hgroups⟩ := decodeGroups_of_ok (ws.flatMap resultCharacters) hok []
  refine ⟨h', hissued, ?_⟩
  rw [List.append_nil] at hgroups
  rw [decodeString_payloads, hgroups, decodeGroups_nil, HostResult.returns_bind, List.append_nil]

/-- The first group with an error ends DECODE, with its command the last. -/
theorem decodeString_of_first_error {good rest : List Payload} {w : Payload} {h : Session}
    (hok : ∀ v ∈ good, statusErr (groupResponse h.block.config v).status = false)
    (herr : statusErr (groupResponse h.block.config w).status = true) :
    ∃ h' : Session, h'.issued.length = h.issued.length + good.length + 1 ∧
      decodeString ((good ++ w :: rest).flatMap resultCharacters) h =
        failWith .blockError ((good ++ w :: rest).flatMap resultCharacters) h' := by
  obtain ⟨h', hconfig, hissued, hgroups⟩ := decodeGroups_of_ok ((good ++ w :: rest).flatMap resultCharacters) hok
    (resultCharacters w ++ rest.flatMap resultCharacters)
  refine ⟨h'.issuing (0b01#2 ++ w), ?_, ?_⟩
  · rw [Session.issuing_issued, List.length_append, List.length_singleton, hissued]
  · rw [← List.flatMap_cons, ← List.flatMap_append] at hgroups
    rw [decodeString_payloads, hgroups, List.flatMap_cons, decodeGroups_characters_append, hconfig, if_pos herr]
    rfl

/-- Settles O46: the string is the characters of payloads (`exists_payloads`), one for each group, and the response to
a group is that of its payload (`isGroupResponse_iff`). -/
theorem decodeStringChecksThenDecodesGroups : Obligations.DecodeStringChecksThenDecodesGroups := by
  unfold Obligations.DecodeStringChecksThenDecodesGroups
  intro str h
  refine ⟨fun hwide => ⟨_, decodeString_of_wide hwide h⟩, fun hlen => ?misaligned, fun hnarrow hlen => ?aligned⟩
  case misaligned =>
    obtain hnarrow | hwide := narrow_or_wide str
    · exact ⟨_, (decodeString_of_narrow hnarrow h).trans (if_pos hlen)⟩
    · exact ⟨_, decodeString_of_wide hwide h⟩
  case aligned =>
    obtain ⟨ws, rfl⟩ := exists_payloads hnarrow hlen
    have hcount : (ws.flatMap resultCharacters).length / 5 = ws.length := by
      rw [length_flatMap_of_length length_resultCharacters]
      omega
    have hgroup {g : Nat} (hg : g < ws.length) {r : Response} :=
      isGroupResponse_iff (c := h.block.config) (List.getElem?_eq_getElem hg) (r := r)
    rw [hcount]
    refine ⟨fun hok => ?succeeds, fun g r hg hr herr hbefore => ?fails⟩
    case succeeds =>
      have hall : ∀ w ∈ ws, statusErr (groupResponse h.block.config w).status = false := fun w hw => by
        obtain ⟨g, hg, rfl⟩ := List.mem_iff_getElem.mp hw
        exact hok g _ hg ((hgroup hg).mpr rfl)
      obtain ⟨h', hissued, hreturns⟩ := decodeString_of_ok hall
      refine ⟨_, h', hreturns, ?_, hissued, fun g r hg hr => ?bytes⟩
      · rw [length_flatMap_of_length fun _ => length_resultBytes _, Nat.mul_comm]
      case bytes =>
        obtain rfl := (hgroup hg).mp hr
        have hbyte {k : Nat} (hk : k < 4) := getElem?_flatMap_of_length
          (f := fun w => resultBytes (groupResponse h.block.config w).result) (fun _ => length_resultBytes _)
          (List.getElem?_eq_getElem hg) hk
        exact ⟨hbyte (k := 0) (by decide), hbyte (k := 1) (by decide), hbyte (k := 2) (by decide),
          hbyte (k := 3) (by decide)⟩
    case fails =>
      obtain rfl := (hgroup hg).mp hr
      have hgood : ∀ v ∈ ws.take g, statusErr (groupResponse h.block.config v).status = false := fun v hv => by
        obtain ⟨i, hi, rfl⟩ := List.mem_take_iff_getElem.mp hv
        exact hbefore i _ (by omega) ((hgroup (by omega)).mpr rfl)
      obtain ⟨h', hissued, hfails⟩ := decodeString_of_first_error (rest := ws.drop (g + 1)) hgood herr
      rw [← List.drop_eq_getElem_cons hg, List.take_append_drop] at hfails
      rw [List.length_take_of_le (by omega)] at hissued
      exact ⟨_, h', hfails, hissued⟩

/-! ### DECODE with a length, and empty input -/

theorem decodeStringTo_of_le {str : HostString} {full : List Byte} {h h' : Session} {n : Nat}
    (hreturns : decodeString str h = .returns full h') (hn : n ≤ full.length) :
    decodeStringTo str n h = .returns (full.take n) h' := by
  rw [decodeStringTo, hreturns, HostResult.returns_bind, if_neg (by omega)]

/-- Settles O47. -/
theorem decodeStringToTruncatesOrFails : Obligations.DecodeStringToTruncatesOrFails := by
  unfold Obligations.DecodeStringToTruncatesOrFails
  refine fun str n h => ⟨fun e h' hfails => ?fails, fun full h' hreturns => ⟨decodeStringTo_of_le hreturns, ?short⟩⟩
  case fails => rw [decodeStringTo, hfails, HostResult.fails_bind]
  case short =>
    intro hn
    rw [decodeStringTo, hreturns, HostResult.returns_bind, if_pos hn]
    exact ⟨_, rfl⟩

/-- Settles O48: the loops have no group, and the length 0 asks for nothing. -/
theorem emptyInputIssuesNoCommand : Obligations.EmptyInputIssuesNoCommand := by
  unfold Obligations.EmptyInputIssuesNoCommand
  intro h
  have hdecode : decodeString [] h = .returns [] h := rfl
  exact ⟨rfl, hdecode, decodeStringTo_of_le hdecode (Nat.le_refl 0)⟩

/-! ### The round trip of a buffer -/

/-- The response to DEC5 of the characters of a block, under either policy (42_block_decoder.md R107). -/
theorem groupResponse_encodedBlock (c : Config) (v : BlockValue) :
    groupResponse c (encodedBlock v) = { result := v.setWidth 40, status := 0x01#8 } :=
  responseTo_of_exec (s := State.resetWith c) (exec_dec5_of_encodedBlock rfl _)

theorem decodeString_encodedCharacters (vs : List BlockValue) (h : Session) :
    ∃ h', decodeString ((vs.map encodedBlock).flatMap resultCharacters) h = .returns (vs.flatMap blockBytes) h' := by
  have hok : ∀ w ∈ vs.map encodedBlock, statusErr (groupResponse h.block.config w).status = false := by
    rw [List.forall_mem_map]
    intro v _
    rw [groupResponse_encodedBlock]
    exact show statusErr 0x01#8 = false by decide
  obtain ⟨h', -, hreturns⟩ := decodeString_of_ok hok
  simp only [List.flatMap_map, groupResponse_encodedBlock] at hreturns
  exact ⟨h', by rw [List.flatMap_map]; exact hreturns⟩

/-- DECODE of what ENCODE returned is the padded buffer. -/
theorem decodeString_of_encodeBuffer (b : List Byte) (h : Session) :
    ∃ str h₁ h₂, encodeBuffer b h = .returns str h₁ ∧ str.length = (b.length + 3) / 4 * 5 ∧
      decodeString str h₁ = .returns (padded b) h₂ := by
  obtain ⟨vs, h₁, hbytes, hlen, hencode, -⟩ := encodeBuffer_blocks b h
  obtain ⟨h₂, hdecode⟩ := decodeString_encodedCharacters vs h₁
  exact ⟨_, h₁, h₂, hencode, by rw [length_encodedCharacters, hlen], by rw [hdecode, hbytes]⟩

/-! ### The integers of a UUID -/

/-- Eight bytes fit 64 bits, so nothing of their big-endian sum is lost. -/
theorem word64OfBytes_toNat (b0 b1 b2 b3 b4 b5 b6 b7 : Byte) :
    (word64OfBytes [b0, b1, b2, b3, b4, b5, b6, b7]).toNat =
      ((((((b0.toNat * 2 ^ 8 + b1.toNat) * 2 ^ 8 + b2.toNat) * 2 ^ 8 + b3.toNat) * 2 ^ 8 + b4.toNat) * 2 ^ 8 +
        b5.toNat) * 2 ^ 8 + b6.toNat) * 2 ^ 8 + b7.toNat := by
  have := b0.isLt; have := b1.isLt; have := b2.isLt; have := b3.isLt
  have := b4.isLt; have := b5.isLt; have := b6.isLt; have := b7.isLt
  rw [word64OfBytes, BitVec.toNat_ofNat]
  simp only [List.foldl_cons, List.foldl_nil]
  omega

theorem word64OfBytes_eq_append (b0 b1 b2 b3 b4 b5 b6 b7 : Byte) :
    word64OfBytes [b0, b1, b2, b3, b4, b5, b6, b7] = b0 ++ b1 ++ b2 ++ b3 ++ b4 ++ b5 ++ b6 ++ b7 := by
  apply BitVec.eq_of_toNat_eq
  rw [word64OfBytes_toNat, append_toNat (b0 ++ b1 ++ b2 ++ b3 ++ b4 ++ b5 ++ b6) b7,
    append_toNat (b0 ++ b1 ++ b2 ++ b3 ++ b4 ++ b5) b6, append_toNat (b0 ++ b1 ++ b2 ++ b3 ++ b4) b5,
    append_toNat (b0 ++ b1 ++ b2 ++ b3) b4, append_toNat (b0 ++ b1 ++ b2) b3, append_toNat (b0 ++ b1) b2,
    append_toNat b0 b1]

/-- The bytes of an integer make it again: neighbouring fields join. -/
theorem word64OfBytes_bytesOfWord64 (w : BitVec 64) : word64OfBytes (bytesOfWord64 w) = w := by
  rw [bytesOfWord64, word64OfBytes_eq_append]
  repeat rw [BitVec.extractLsb'_append_extractLsb'_eq_extractLsb' (by decide)]
  exact BitVec.extractLsb'_eq_self

theorem bytesOfWord64_append (b0 b1 b2 b3 b4 b5 b6 b7 : Byte) :
    bytesOfWord64 (b0 ++ b1 ++ b2 ++ b3 ++ b4 ++ b5 ++ b6 ++ b7) = [b0, b1, b2, b3, b4, b5, b6, b7] := by
  have := b0.isLt; have := b1.isLt; have := b2.isLt; have := b3.isLt
  have := b4.isLt; have := b5.isLt; have := b6.isLt; have := b7.isLt
  rw [← word64OfBytes_eq_append]
  simp only [bytesOfWord64, List.cons.injEq, and_true]
  refine ⟨?_, ?_, ?_, ?_, ?_, ?_, ?_, ?_⟩ <;> apply BitVec.eq_of_toNat_eq <;>
    rw [extract_toNat, word64OfBytes_toNat] <;> omega

/-- A buffer of whole groups needs no padding. -/
theorem padded_eq_self {b : List Byte} (h : b.length % 4 = 0) : padded b = b := by
  rw [padded, h]
  exact List.append_nil b

theorem decodeUuid_of_returns {str : HostString} {h h' : Session} {b : List Byte}
    (hlen : str.length = uuidEncodedLength) (hreturns : decodeString str h = .returns b h') :
    decodeUuid str h =
      .returns { msb := word64OfBytes (b.take 8), lsb := word64OfBytes ((b.drop 8).take 8) } h' := by
  rw [decodeUuid, if_neg (not_not.mpr hlen), hreturns, HostResult.returns_bind]

/-- Settles O49: DECODE gives the padded buffer back (`decodeString_of_encodeBuffer`), of which the first `len(B)`
bytes are the buffer; a UUID needs no padding, and its bytes make its integers (`word64OfBytes_bytesOfWord64`). -/
theorem decodingWhatWasEncodedGivesItBack : Obligations.DecodingWhatWasEncodedGivesItBack := by
  unfold Obligations.DecodingWhatWasEncodedGivesItBack
  refine ⟨fun b h => ?buffer, fun u h => ?uuid⟩
  case buffer =>
    obtain ⟨str, h₁, h₂, hencode, -, hdecode⟩ := decodeString_of_encodeBuffer b h
    refine ⟨str, h₁, h₂, hencode, ?_⟩
    rw [decodeStringTo_of_le hdecode (by rw [length_padded]; omega), padded, List.take_left]
  case uuid =>
    obtain ⟨str, h₁, h₂, hencode, hlen, hdecode⟩ :=
      decodeString_of_encodeBuffer (bytesOfWord64 u.msb ++ bytesOfWord64 u.lsb) h
    have hbytes : (bytesOfWord64 u.msb ++ bytesOfWord64 u.lsb).length = 16 := rfl
    have hmsb : (bytesOfWord64 u.msb ++ bytesOfWord64 u.lsb).take 8 = bytesOfWord64 u.msb := rfl
    have hlsb : ((bytesOfWord64 u.msb ++ bytesOfWord64 u.lsb).drop 8).take 8 = bytesOfWord64 u.lsb := rfl
    rw [hbytes] at hlen
    rw [padded_eq_self (by rw [hbytes])] at hdecode
    refine ⟨str, h₁, h₂, hencode, hlen, ?_⟩
    rw [decodeUuid_of_returns hlen hdecode, hmsb, hlsb, word64OfBytes_bytesOfWord64, word64OfBytes_bytesOfWord64]

/-- Settles O50: the big-endian bytes of the two integers are the sixteen bytes (`bytesOfWord64_append`). -/
theorem encodeUuidIsFourCommandsAndTwentyCharacters : Obligations.EncodeUuidIsFourCommandsAndTwentyCharacters := by
  unfold Obligations.EncodeUuidIsFourCommandsAndTwentyCharacters
  refine ⟨rfl, fun b0 b1 b2 b3 b4 b5 b6 b7 b8 b9 b10 b11 b12 b13 b14 b15 h => ?_⟩
  obtain ⟨vs, h', -, hlen, hencode, hissued⟩ :=
    encodeBuffer_blocks [b0, b1, b2, b3, b4, b5, b6, b7, b8, b9, b10, b11, b12, b13, b14, b15] h
  have hfour : vs.length = 4 := by simpa using hlen
  refine ⟨_, h', ?_, hencode, by rw [length_encodedCharacters, hfour]; rfl,
    by rw [hissued, List.length_append, List.length_map, hfour]⟩
  rw [encodeUuid, bytesOfWord64_append, bytesOfWord64_append]
  exact hencode

/-! ### How the procedures end -/

/-- A procedure on the string `str` returns, or fails with a message about `str`, and with `misaligned` only where the
length is no multiple of 5 (R124). -/
inductive HostResult.ReturnsOrFails {α : Type} (str : HostString) : HostResult α → Prop where
  | returns (a : α) (h : Session) : ReturnsOrFails str (.returns a h)
  | fails (why : HostFailure) (h : Session) (hwhy : why = .misaligned → str.length % 5 ≠ 0) :
      ReturnsOrFails str (failWith why str h)

theorem HostResult.ReturnsOrFails.bind {α β : Type} {str : HostString} {x : HostResult α}
    {f : α → Session → HostResult β} (hx : x.ReturnsOrFails str) (hf : ∀ a h, (f a h).ReturnsOrFails str) :
    (x.bind f).ReturnsOrFails str := by
  cases hx with
  | returns a h => exact hf a h
  | fails why h hwhy => exact .fails why h hwhy

theorem HostResult.ReturnsOrFails.ne_stops {α : Type} {str : HostString} {x : HostResult α}
    (hx : x.ReturnsOrFails str) (r : Fault ⊕ Refusal) : x ≠ .stops r := by
  cases hx <;> exact nofun

/-- The text of a failure (R124): only an alignment failure may go without the phrase. -/
theorem HostResult.ReturnsOrFails.message {α : Type} {str : HostString} {x : HostResult α} {e : InvalidInput}
    {h : Session} (hx : x.ReturnsOrFails str) (he : x = .fails e h) :
    (∃ before after, e.message.text = before ++ "Input is not valid Z85" ++ after) ∨
      (str.length % 5 ≠ 0 ∧ ∃ t, e.message = .namesAlignment t) := by
  cases hx with
  | returns a h => cases he
  | fails why h hwhy =>
    cases he
    unfold failureMessage
    split
    · exact .inr ⟨hwhy rfl, _, rfl⟩
    · exact .inl ⟨_, _, rfl⟩

theorem decodeGroups_returnsOrFails (whole str : HostString) (h : Session) :
    (decodeGroups whole str h).ReturnsOrFails whole := by
  induction str, h using decodeGroups.induct with
  | case1 c0 c1 c2 c3 c4 rest h ih =>
    rw [decodeGroups, issue_eq, HostResult.returns_bind]
    split
    · exact .fails _ _ nofun
    · exact HostResult.ReturnsOrFails.bind (ih _) fun _ _ => .returns _ _
  | case2 str h hshort =>
    rw [decodeGroups]
    · exact .returns _ _
    · exact hshort

theorem decodeString_returnsOrFails (str : HostString) (h : Session) : (decodeString str h).ReturnsOrFails str := by
  unfold decodeString
  split
  · exact .fails _ _ nofun
  · split
    · next hlen => exact .fails _ _ fun _ => hlen
    · exact decodeGroups_returnsOrFails str str h

theorem decodeStringTo_returnsOrFails (str : HostString) (n : Nat) (h : Session) :
    (decodeStringTo str n h).ReturnsOrFails str := by
  refine (decodeString_returnsOrFails str h).bind fun full h' => ?_
  split
  · exact .fails _ _ nofun
  · exact .returns _ _

theorem decodeUuid_returnsOrFails (str : HostString) (h : Session) : (decodeUuid str h).ReturnsOrFails str := by
  unfold decodeUuid
  split
  · exact .fails _ _ nofun
  · exact (decodeString_returnsOrFails str h).bind fun _ _ => .returns _ _

/-- Settles O52: each procedure returns or fails about its own string, because no command stops (`issue_eq`). -/
theorem hostFailuresAreInvalidInputWithThePhrase : Obligations.HostFailuresAreInvalidInputWithThePhrase := by
  unfold Obligations.HostFailuresAreInvalidInputWithThePhrase
  refine ⟨fun str n h r => ⟨(decodeString_returnsOrFails str h).ne_stops r,
    (decodeStringTo_returnsOrFails str n h).ne_stops r, (decodeUuid_returnsOrFails str h).ne_stops r⟩, ?message⟩
  case message =>
    rintro str n h h' e (he | he | he)
    · exact (decodeString_returnsOrFails str h).message he
    · exact (decodeStringTo_returnsOrFails str n h).message he
    · exact (decodeUuid_returnsOrFails str h).message he

/-! ### What DECODE_UUID accepts -/

/-- A group that DEC5 accepts has characters of the alphabet alone, under either policy (42_block_decoder.md R101). -/
theorem exists_mem_alphabet_of_ok {c : Config} {w : Payload} (hok : statusErr (groupResponse c w).status = false)
    {x : Nat} (hx : x ∈ resultCharacters w) : ∃ a ∈ alphabet, a.toNat = x := by
  have hcharacters : resultCharacters w =
      [characterAt w 0, characterAt w 1, characterAt w 2, characterAt w 3, characterAt w 4].map BitVec.toNat := rfl
  rw [hcharacters] at hx
  obtain ⟨a, ha, rfl⟩ := List.mem_map.mp hx
  refine ⟨a, ?_, rfl⟩
  by_contra hn
  obtain ⟨p, hraises⟩ := (FailsWith.invalidChar (s := State.resetWith c) ha hn).exec_raises
  rw [← decode_dec5_word] at hraises
  have hresponse : groupResponse c w = _ := responseTo_of_exec hraises
  rw [hresponse, statusErr_statusByte] at hok
  cases hok

/-- Where DECODE returns, both checks passed and every group succeeded, with four bytes each. -/
theorem decodeString_returns_inv {str : HostString} {h h' : Session} {out : List Byte}
    (hreturns : decodeString str h = .returns out h') :
    ∃ ws : List Payload, ws.flatMap resultCharacters = str ∧
      (∀ w ∈ ws, statusErr (groupResponse h.block.config w).status = false) ∧ out.length = 4 * ws.length := by
  have hnarrow : ∀ c ∈ str, c ≤ 0xFF := (narrow_or_wide str).resolve_right fun hwide => by
    cases (decodeString_of_wide hwide h).symm.trans hreturns
  have hlen : str.length % 5 = 0 := by
    by_contra hlen
    cases ((decodeString_of_narrow hnarrow h).trans (if_pos hlen)).symm.trans hreturns
  obtain ⟨ws, rfl⟩ := exists_payloads hnarrow hlen
  cases hfind : ws.find? fun w => statusErr (groupResponse h.block.config w).status with
  | none =>
    have hok : ∀ w ∈ ws, statusErr (groupResponse h.block.config w).status = false := by simpa using hfind
    obtain ⟨h₁, -, hall⟩ := decodeString_of_ok hok
    cases hall.symm.trans hreturns
    exact ⟨ws, rfl, hok, length_flatMap_of_length (fun _ => length_resultBytes _) ws⟩
  | some w =>
    obtain ⟨herr, good, rest, rfl, hgood⟩ := List.find?_eq_some_iff_append.mp hfind
    obtain ⟨h₁, -, hfails⟩ := decodeString_of_first_error (rest := rest) (by simpa using hgood) herr
    cases hfails.symm.trans hreturns

/-- Where DECODE_UUID returns, the string has 20 characters, and the integers are the halves of what DECODE returns. -/
theorem decodeUuid_returns_inv {str : HostString} {h h' : Session} {u : Uuid}
    (hreturns : decodeUuid str h = .returns u h') :
    str.length = uuidEncodedLength ∧ ∃ b, decodeString str h = .returns b h' ∧
      u = { msb := word64OfBytes (b.take 8), lsb := word64OfBytes ((b.drop 8).take 8) } := by
  unfold decodeUuid at hreturns
  split at hreturns
  · cases hreturns
  · next hlen =>
    refine ⟨not_not.mp hlen, ?_⟩
    cases hdecode : decodeString str h with
    | returns b h₁ =>
      rw [hdecode] at hreturns
      cases hreturns
      exact ⟨b, rfl, rfl⟩
    | fails e h₁ => rw [hdecode] at hreturns; cases hreturns
    | stops r => rw [hdecode] at hreturns; cases hreturns

/-- Settles O51: a DECODE_UUID that does not fail returns (`decodeUuid_returnsOrFails`), and then DECODE accepted every
group (`decodeString_returns_inv`), so each character is one of the alphabet and the bytes are sixteen. -/
theorem decodeUuidNeedsTwentyValidCharacters : Obligations.DecodeUuidNeedsTwentyValidCharacters := by
  unfold Obligations.DecodeUuidNeedsTwentyValidCharacters
  refine ⟨fun str h hlen => ?length, fun str h c hc hn => ?invalid, fun str h h' u hreturns => ?bytes⟩
  case length =>
    exact ⟨_, (if_pos hlen : decodeUuid str h = failWith .uuidLength str h)⟩
  case invalid =>
    cases hresult : decodeUuid str h with
    | returns u h' =>
      obtain ⟨-, b, hdecode, -⟩ := decodeUuid_returns_inv hresult
      obtain ⟨ws, rfl, hok, -⟩ := decodeString_returns_inv hdecode
      obtain ⟨w, hw, hcw⟩ := List.mem_flatMap.mp hc
      obtain ⟨a, ha, hac⟩ := exists_mem_alphabet_of_ok (hok w hw) hcw
      exact absurd hac (hn a ha)
    | fails e h' => exact ⟨e, h', rfl⟩
    | stops r => exact absurd hresult ((decodeUuid_returnsOrFails str h).ne_stops r)
  case bytes =>
    obtain ⟨hlen, b, hdecode, rfl⟩ := decodeUuid_returns_inv hreturns
    obtain ⟨ws, rfl, -, hb⟩ := decodeString_returns_inv hdecode
    rw [length_flatMap_of_length length_resultCharacters, uuidEncodedLength] at hlen
    have hsixteen : b.length = 16 := by omega
    match b, hsixteen with
    | [b0, b1, b2, b3, b4, b5, b6, b7, b8, b9, b10, b11, b12, b13, b14, b15], _ =>
      exact ⟨b0, b1, b2, b3, b4, b5, b6, b7, b8, b9, b10, b11, b12, b13, b14, b15, hdecode,
        word64OfBytes_eq_append b0 b1 b2 b3 b4 b5 b6 b7, word64OfBytes_eq_append b8 b9 b10 b11 b12 b13 b14 b15⟩

end Sys2Proof.Machine
end

section
/-! PROOF. Errors and the one model fault (60_exceptions.md): an error is a response that writes RESULT = 0 and STATUS
alone and that the next command does not see (R140; 42_block_decoder.md R106), and a step stops only at the read of
RESULT while it holds no value (R142). -/

namespace Sys2Proof.Machine

/-! ### Errors -/

/-- The registers of the block before, an error among them, have no part in what a command does. -/
theorem exec_respond (i : Instr) (s : State) (r : ResultWord) (b : StatusByte) : exec i (s.respond r b) = exec i s := by
  obtain ⟨r', b', hafter, hexec⟩ := exec_same_response (s := s.respond r b) (s' := s) rfl i
  have hoverwritten : (s.respond r b).respond r' b' = s.respond r' b' := rfl
  rw [hafter, hoverwritten, hexec]

/-- A command that leaves ERR = 1 has raised InvalidInput. -/
theorem raises_of_statusErr {i : Instr} {s t : State} (h : exec i s = .next t) (herr : statusErr t.status = true) :
    ∃ cause pos, t = s.raiseInvalidInput cause pos := by
  obtain ⟨v, rfl⟩ | ⟨cause, pos, -, -, -, ht⟩ := exec_next_cases h
  · rw [State.complete_status, statusErr_statusByte] at herr
    cases herr
  · exact ⟨cause, pos, ht⟩

/-- Settles O13: an error is a response like any other, which the next command overwrites (`exec_respond`), and ERR = 1
is left by `raiseInvalidInput` alone (`raises_of_statusErr`). -/
theorem errorsWriteZeroResultAndNothingElse : Obligations.ErrorsWriteZeroResultAndNothingElse := by
  unfold Obligations.ErrorsWriteZeroResultAndNothingElse
  refine ⟨fun s cause pos => rfl, fun i s cause pos => exec_respond i s 0 (statusByte true cause pos),
    fun i s t h herr => ?frame⟩
  case frame =>
    obtain ⟨cause, pos, rfl⟩ := raises_of_statusErr h herr
    rfl

/-! ### The fault -/

/-- The read of RESULT while it holds no value faults (R142, 10_state.md R38). -/
theorem step_readResult_of_none {s : State} {rest : List HostAction} (hp : s.port = .readResult :: rest)
    (hnone : s.result = none) : step s = .fault .resultHoldsNoValue := by
  unfold step; rw [hp]
  simp only [State.takeReadResult, State.readResult, hnone]

/-- A step answers a next state, or it is the read of RESULT while RESULT holds no value: every other action, a
command among them, always answers. -/
theorem step_next_or_faults (s : State) :
    (∃ t, step s = .next t) ∨
      step s = .fault .resultHoldsNoValue ∧ s.result = none ∧ ∃ rest, s.port = .readResult :: rest := by
  match hp : s.port with
  | [] => exact .inl ⟨s, step_idle hp⟩
  | .issue cmd :: rest =>
    obtain ⟨r, hexec, -⟩ := exec_responds (decode cmd) { s with port := rest }
    exact .inl ⟨_, (step_issue hp).trans hexec⟩
  | .reset :: rest => exact .inl ⟨_, step_reset hp⟩
  | .readStatus :: rest => exact .inl ⟨_, step_readStatus hp⟩
  | .readResult :: rest =>
    cases hresult : s.result with
    | some v => exact .inl ⟨_, step_readResult hp hresult⟩
    | none => exact .inr ⟨step_readResult_of_none hp hresult, rfl, rest, rfl⟩

/-- With DONE = 1, RESULT holds a value (10_state.md R26, R38). -/
theorem State.Inv.exists_result {s : State} (h : s.Inv) (hdone : statusDone s.status = true) :
    ∃ v, s.result = some v := by
  obtain ⟨-, hvalue, -⟩ := h
  exact Option.isSome_iff_exists.mp (hvalue.trans hdone)

/-- Settles O4: a step that answers no next state is the read of RESULT without a value (`step_next_or_faults`), and
with DONE = 1 there is a value to read (`State.Inv.exists_result`). -/
theorem onlyFaultIsReadingResultWithoutValue : Obligations.OnlyFaultIsReadingResultWithoutValue := by
  unfold Obligations.OnlyFaultIsReadingResultWithoutValue
  refine ⟨fun s f hfault => ?only, fun s rest => step_readResult_of_none, fun s r hrefused => ?never,
    fun s rest hs hp hdone => ?done⟩
  case only =>
    obtain ⟨t, ht⟩ | ⟨hf, hnone, hport⟩ := step_next_or_faults s
    · cases ht.symm.trans hfault
    · exact ⟨Host.Outcome.fault.inj (hfault.symm.trans hf), hnone, hport⟩
  case never =>
    obtain ⟨t, ht⟩ | ⟨hf, -⟩ := step_next_or_faults s
    · cases ht.symm.trans hrefused
    · cases hf.symm.trans hrefused
  case done =>
    obtain ⟨v, hv⟩ := hs.exists_result hdone
    exact ⟨v, hv, step_readResult hp hv⟩

end Sys2Proof.Machine
end

section
/-! PROOF. Reset and the host's duty (70_reset_and_hazards.md): a reset is one step that clears STATUS and RESULT
(R160), and a host that reads RESULT only when an operation has completed since reset never stops the machine (R167,
R168). -/

namespace Sys2Proof.Machine

/-! ### Reset -/

/-- Settles O2: the step takes the reset from the port (`step_reset`), and the two registers are all that
`State.applyReset` writes. -/
theorem resetStepClearsStatusAndResult : Obligations.ResetStepClearsStatusAndResult := by
  unfold Obligations.ResetStepClearsStatusAndResult
  intro s rest hp
  rw [step_reset hp, State.applyReset]

/-! ### Runs that never stop -/

/-- A property that every step answers and keeps makes every run from it safe. -/
theorem runsSafely_of_step {P : State → Prop} (hstep : ∀ s, P s → ∃ t, step s = .next t ∧ P t) {s : State}
    (hs : P s) : RunsSafely s := by
  intro n
  induction n generalizing s with
  | zero => exact ⟨s, run_zero s⟩
  | succ n ih =>
    obtain ⟨u, hu, hPu⟩ := hstep s hs
    rw [run_succ_of_step hu]
    exact ih hPu

/-! ### The host's duty -/

@[simp] theorem readsOnlyWhenDone_issue (done : Bool) (cmd : CommandWord) (rest : List HostAction) :
    readsOnlyWhenDone done (.issue cmd :: rest) = readsOnlyWhenDone true rest := rfl

@[simp] theorem readsOnlyWhenDone_reset (done : Bool) (rest : List HostAction) :
    readsOnlyWhenDone done (.reset :: rest) = readsOnlyWhenDone false rest := rfl

@[simp] theorem readsOnlyWhenDone_readStatus (done : Bool) (rest : List HostAction) :
    readsOnlyWhenDone done (.readStatus :: rest) = readsOnlyWhenDone done rest := rfl

@[simp] theorem readsOnlyWhenDone_readResult_iff {done : Bool} {rest : List HostAction} :
    readsOnlyWhenDone done (.readResult :: rest) = true ↔ done = true ∧ readsOnlyWhenDone done rest = true :=
  Bool.and_eq_true_iff

/-- The actions left in the port keep the host's duty (R167), DONE being the record of an operation since reset. -/
def State.PortKeepsDuty (s : State) : Prop := readsOnlyWhenDone (statusDone s.status) s.port = true

theorem exec_keeps_port {i : Instr} {s t : State} (h : exec i s = .next t) : t.port = s.port := by
  obtain ⟨r, hexec, -⟩ := exec_responds i s
  obtain rfl := Host.Outcome.next.inj (hexec.symm.trans h)
  exact State.respond_port s r.result r.status

/-- A step takes the oldest action, and DONE after it is what the duty of the remaining actions asks about: a command
sets it, a reset clears it, and a read leaves it. -/
theorem State.PortKeepsDuty.of_step {s t : State} (h : s.PortKeepsDuty) (hstep : step s = .next t) :
    t.PortKeepsDuty := by
  unfold State.PortKeepsDuty at h ⊢
  obtain ⟨-, rfl⟩ | ⟨cmd, rest, hp, hexec⟩ | ⟨rest, hp, rfl⟩ | ⟨rest, v, hp, -, rfl⟩ | ⟨rest, hp, rfl⟩ :=
    step_next_cases hstep
  case inl => exact h
  case inr.inl =>
    rw [hp, readsOnlyWhenDone_issue] at h
    rwa [statusDone_of_exec hexec, exec_keeps_port hexec]
  case inr.inr.inl =>
    rw [hp, readsOnlyWhenDone_reset] at h
    rwa [statusDone_applyReset]
  case inr.inr.inr.inl =>
    rw [hp, readsOnlyWhenDone_readResult_iff] at h
    obtain ⟨-, hrest⟩ := h
    exact hrest
  case inr.inr.inr.inr =>
    rw [hp, readsOnlyWhenDone_readStatus] at h
    exact h

/-- With legal registers and the host's duty kept, the one step that faults is not taken: a read of RESULT comes with
DONE = 1, and then RESULT holds a value. -/
theorem State.Inv.step_answers {s : State} (hs : s.Inv) (hduty : s.PortKeepsDuty) : ∃ t, step s = .next t := by
  obtain hnext | ⟨-, hnone, rest, hp⟩ := step_next_or_faults s
  · exact hnext
  · unfold State.PortKeepsDuty at hduty
    rw [hp, readsOnlyWhenDone_readResult_iff] at hduty
    obtain ⟨hdone, -⟩ := hduty
    obtain ⟨v, hv⟩ := hs.exists_result hdone
    cases hnone.symm.trans hv

/-- Legal registers together with the host's duty. -/
def State.IsDisciplined (s : State) : Prop := s.Inv ∧ s.PortKeepsDuty

theorem State.IsDisciplined.answers_and_keeps {s : State} (h : s.IsDisciplined) :
    ∃ t, step s = .next t ∧ t.IsDisciplined := by
  obtain ⟨hinv, hduty⟩ := h
  obtain ⟨t, ht⟩ := hinv.step_answers hduty
  exact ⟨t, ht, stepKeepsRegistersLegal s t hinv ht, hduty.of_step ht⟩

/-- Settles O43: legal registers together with the host's duty is an invariant under which every step answers
(`State.Inv.step_answers`) and which every step keeps (`stepKeepsRegistersLegal`, `State.PortKeepsDuty.of_step`). -/
theorem disciplinedHostNeverFaults : Obligations.DisciplinedHostNeverFaults := by
  unfold Obligations.DisciplinedHostNeverFaults
  intro s hs hduty
  exact runsSafely_of_step (fun _ => State.IsDisciplined.answers_and_keeps) (And.intro hs hduty)

end Sys2Proof.Machine
end
